-- ==== Sys2Proof/Word.lean ====
section
/-! DEFINITION. The byte, the register index, and the fixed sizes of the machine (spec 00_scope.md R8, R9). -/

namespace Sys2Proof

/-- A byte: 8 bits, unsigned, arithmetic wrapping modulo 256 (R8 `XLEN`, R9). -/
abbrev Byte := BitVec 8

/-- A valid register index 0..7 (R8 `NREGS`, 10_state.md R20). -/
abbrev RegIdx := Fin 8

/-- The number of memory cells (R8 `MEM_SIZE`, 20_memory.md R50). -/
abbrev memSize : Nat := 256

/-- The register that is the stack pointer (R8 `SP_INDEX`, 10_state.md R21). -/
abbrev spIdx : RegIdx := 7

/-- The operand byte that names register `r`. -/
def regByte (r : RegIdx) : Byte := BitVec.ofNat 8 r.val

end Sys2Proof
end

