-- ==== Sys2Proof/Syntax.lean ====
section
/-! DEFINITION. The 22 instructions of 30_encoding.md R75 as syntax: an instruction carries its operand bytes as they
stand in memory. A register-index byte of 8 or more is syntax too: the instruction that carries it is fetched, and it
raises OutOfBounds when it executes (10_state.md R22). -/

namespace Sys2Proof

/-- The mnemonics of the dispatch table (30_encoding.md R75), in the table's order. -/
inductive Mnemonic where
  | ldi | prn
  | add | sub | mul | div | mod | and | or | xor | not | shl | shr
  | push | pop
  | call | ret
  | cmp
  | jmp | jeq | jne
  | hlt
  deriving DecidableEq, Repr

/-- The four formats of 30_encoding.md R71. -/
inductive Format where
  /-- opcode only -/
  | f0
  /-- opcode, regA -/
  | fr
  /-- opcode, regA, regB -/
  | frr
  /-- opcode, regA, immediate -/
  | fri
  deriving DecidableEq, Repr

/-- An instruction with its operand bytes: `a` is regA, `b` regB, `imm` LDI's literal (30_encoding.md R71, R72). -/
inductive Instr where
  | ldi (a imm : Byte)
  | prn (a : Byte)
  | add (a b : Byte)
  | sub (a b : Byte)
  | mul (a b : Byte)
  | div (a b : Byte)
  | mod (a b : Byte)
  | and (a b : Byte)
  | or (a b : Byte)
  | xor (a b : Byte)
  | not (a : Byte)
  | shl (a b : Byte)
  | shr (a b : Byte)
  | push (a : Byte)
  | pop (a : Byte)
  | call (a : Byte)
  | ret
  | cmp (a b : Byte)
  | jmp (a : Byte)
  | jeq (a : Byte)
  | jne (a : Byte)
  | hlt
  deriving DecidableEq, Repr

/-- The row of the dispatch table an instruction belongs to. -/
def Instr.mnemonic : Instr → Mnemonic
  | .ldi _ _ => .ldi
  | .prn _ => .prn
  | .add _ _ => .add
  | .sub _ _ => .sub
  | .mul _ _ => .mul
  | .div _ _ => .div
  | .mod _ _ => .mod
  | .and _ _ => .and
  | .or _ _ => .or
  | .xor _ _ => .xor
  | .not _ => .not
  | .shl _ _ => .shl
  | .shr _ _ => .shr
  | .push _ => .push
  | .pop _ => .pop
  | .call _ => .call
  | .ret => .ret
  | .cmp _ _ => .cmp
  | .jmp _ => .jmp
  | .jeq _ => .jeq
  | .jne _ => .jne
  | .hlt => .hlt

end Sys2Proof
end

