-- ==== Sys2Proof/Config.lean ====
section
/-! DEFINITION. The parameters 00_scope.md R8 leaves configurable, as plain data. Their default values are `defaultConfig`
in Sys2Proof/Decode.lean; the configuration a machine runs with is a field of its State (log 22). The spec leaves no value
free (93_implementation_defined.md, end of Part 1), so there is no free value here. -/

namespace Sys2Proof

/-- The rule that gives `stackFloor` from the image length `L` (00_scope.md R8; D12). -/
inductive FloorRule where
  /-- The default: `stackFloor = L`. -/
  | imageLength
  /-- Any other rule, by its value for each `L` in 0..256 (10_state.md R35). -/
  | table (floors : Vector Nat 257)
  deriving DecidableEq, Repr

/-- The opcode bytes of the 18 rows the source does not give (30_encoding.md R75; D7). The other four are fixed and no part
of a configuration (R76). Any byte may stand here, 0x00 too, although R78 holds 0x00 unmapped: R8 and D7 put no limit on
the 18 bytes (DESIGN CHOICE, safe, log 23). -/
structure OpcodeBytes where
  sub : Byte
  mul : Byte
  div : Byte
  mod : Byte
  and : Byte
  or : Byte
  xor : Byte
  not : Byte
  shl : Byte
  shr : Byte
  push : Byte
  pop : Byte
  call : Byte
  ret : Byte
  cmp : Byte
  jmp : Byte
  jeq : Byte
  jne : Byte
  deriving DecidableEq, Repr

/-- The configurable parameters of 00_scope.md R8. -/
structure Config where
  /-- The stack pointer of the empty stack; valid slots lie below it (D12). -/
  stackTop : Nat
  /-- The rule for the lowest valid stack slot (D12). -/
  stackFloor : FloorRule
  /-- The opcode bytes of the rows the source does not give (D7). -/
  opcodeByte : OpcodeBytes
  deriving DecidableEq, Repr

end Sys2Proof
end

