-- ==== Sys2Proof/WellFormed.lean ====
section
/-! DEFINITION. The one check the spec makes on an instruction's operands: every register-index byte is below 8
(10_state.md R22). LDI's immediate is not an index and is never checked (30_encoding.md R73). -/

namespace Sys2Proof

/-- The operand byte names a register. -/
def namesRegister (a : Byte) : Bool := decide (a.toNat < 8)

/-- Every register-index operand of the instruction names a register (10_state.md R22). -/
def wellFormed : Instr → Bool
  | .ldi a _ => namesRegister a
  | .prn a => namesRegister a
  | .add a b => namesRegister a && namesRegister b
  | .sub a b => namesRegister a && namesRegister b
  | .mul a b => namesRegister a && namesRegister b
  | .div a b => namesRegister a && namesRegister b
  | .mod a b => namesRegister a && namesRegister b
  | .and a b => namesRegister a && namesRegister b
  | .or a b => namesRegister a && namesRegister b
  | .xor a b => namesRegister a && namesRegister b
  | .not a => namesRegister a
  | .shl a b => namesRegister a && namesRegister b
  | .shr a b => namesRegister a && namesRegister b
  | .push a => namesRegister a
  | .pop a => namesRegister a
  | .call a => namesRegister a
  | .ret => true
  | .cmp a b => namesRegister a && namesRegister b
  | .jmp a => namesRegister a
  | .jeq a => namesRegister a
  | .jne a => namesRegister a
  | .hlt => true

/-- `wellFormed` as a proposition. -/
abbrev WellFormed (i : Instr) : Prop := wellFormed i = true

end Sys2Proof
end

