-- ==== Sys2Proof/Decode.lean ====
section
/-! DEFINITION. The dispatch table (30_encoding.md R75), the default configuration (00_scope.md R8), the decoder and
the encoder. Decoding is total on any bytes: it gives an instruction and the bytes after it, or rejects by name. -/

namespace Sys2Proof

/-! ## The dispatch table -/

/-- The LS-8 opcode bytes of the 18 rows the source does not give (30_encoding.md R75; PRESUMED, unsafe, log 5; D7). -/
def defaultOpcodeBytes : OpcodeBytes where
  sub := 0xA1
  mul := 0xA2
  div := 0xA3
  mod := 0xA4
  and := 0xA8
  or := 0xAA
  xor := 0xAB
  not := 0x69
  shl := 0xAC
  shr := 0xAD
  push := 0x45
  pop := 0x46
  call := 0x50
  ret := 0x11
  cmp := 0xA7
  jmp := 0x54
  jeq := 0x55
  jne := 0x56

/-- The default parameters of 00_scope.md R8: `stackTop` 0xF4, `stackFloor` the image length (DESIGN CHOICE, unsafe,
log 6; D12), and the opcode table of 30_encoding.md R75. The machine after reset runs with these (log 22). -/
def defaultConfig : Config where
  stackTop := 0xF4
  stackFloor := .imageLength
  opcodeByte := defaultOpcodeBytes

/-- `stackFloor`, the lowest valid stack slot, by the configuration's rule (00_scope.md R8; D12). A table has a value for
every image length 0..256 (10_state.md R35); above 256, where no run gets, the length itself stands. -/
def stackFloorOf (c : Config) (imageLen : Nat) : Nat :=
  match c.stackFloor with
  | .imageLength => imageLen
  | .table floors => floors[imageLen]?.getD imageLen

/-- The opcode byte of a mnemonic: four are fixed (30_encoding.md R76), the other 18 are configuration (R75, D7). -/
def opcodeOf (c : Config) : Mnemonic → Byte
  | .ldi => 0x82
  | .prn => 0x47
  | .add => 0xA0
  | .sub => c.opcodeByte.sub
  | .mul => c.opcodeByte.mul
  | .div => c.opcodeByte.div
  | .mod => c.opcodeByte.mod
  | .and => c.opcodeByte.and
  | .or => c.opcodeByte.or
  | .xor => c.opcodeByte.xor
  | .not => c.opcodeByte.not
  | .shl => c.opcodeByte.shl
  | .shr => c.opcodeByte.shr
  | .push => c.opcodeByte.push
  | .pop => c.opcodeByte.pop
  | .call => c.opcodeByte.call
  | .ret => c.opcodeByte.ret
  | .cmp => c.opcodeByte.cmp
  | .jmp => c.opcodeByte.jmp
  | .jeq => c.opcodeByte.jeq
  | .jne => c.opcodeByte.jne
  | .hlt => 0x01

/-- All 22 rows: the four of fixed opcode first (30_encoding.md R76), then the table's order (R75). -/
def allMnemonics : List Mnemonic :=
  [.ldi, .prn, .add, .hlt, .sub, .mul, .div, .mod, .and, .or, .xor, .not, .shl, .shr,
   .push, .pop, .call, .ret, .cmp, .jmp, .jeq, .jne]

/-- No opcode byte stands for two rows: what makes a configuration a dispatch table (30_encoding.md R77). It
does not bar 0x00 from the 18 open rows (DESIGN CHOICE, safe, log 23). -/
abbrev DistinctOpcodes (c : Config) : Prop := (allMnemonics.map (opcodeOf c)).Nodup

/-- The row whose opcode is the byte, or none: the whole byte is matched (30_encoding.md R77, R78). Where a configuration
gives one byte to two rows, the first of `allMnemonics` has it, so the four fixed bytes always keep their rows (R76; log
22). 0x00 is no opcode, as R78 and 70_reset_and_hazards.md R233 say, in the default table and wherever the configuration
gives it to no row; where it does, 0x00 selects that row (DESIGN CHOICE, safe, log 23). -/
def mnemonicOf (c : Config) (op : Byte) : Option Mnemonic :=
  allMnemonics.find? fun m => opcodeOf c m == op

/-- The format of each row (30_encoding.md R71, R75). -/
def formatOf : Mnemonic → Format
  | .ldi => .fri
  | .prn => .fr
  | .add => .frr
  | .sub => .frr
  | .mul => .frr
  | .div => .frr
  | .mod => .frr
  | .and => .frr
  | .or => .frr
  | .xor => .frr
  | .not => .fr
  | .shl => .frr
  | .shr => .frr
  | .push => .fr
  | .pop => .fr
  | .call => .fr
  | .ret => .f0
  | .cmp => .frr
  | .jmp => .fr
  | .jeq => .fr
  | .jne => .fr
  | .hlt => .f0

/-- The bytes of an instruction of the format, the opcode among them (30_encoding.md R70, R71). -/
def formatLength : Format → Nat
  | .f0 => 1
  | .fr => 2
  | .frr => 3
  | .fri => 3

/-- The length of a row (30_encoding.md R70, R75). -/
def lengthOf (m : Mnemonic) : Nat := formatLength (formatOf m)

/-! ## Decoding -/

/-- Why bytes are no instruction. -/
inductive DecodeError where
  /-- There is no opcode byte to read. -/
  | noOpcode
  /-- The byte is the opcode of no row (30_encoding.md R78). -/
  | unknownOpcode (op : Byte)
  /-- The opcode's row has more operand bytes than there are (30_encoding.md R82). -/
  | missingOperand (op : Byte)
  deriving DecidableEq, Repr

/-- Take one operand byte (format FR). -/
def oneOperand (mk : Byte → Instr) : List Byte → Option (Instr × List Byte)
  | a :: rest => some (mk a, rest)
  | [] => none

/-- Take two operand bytes, in address order (formats FRR and FRI). -/
def twoOperands (mk : Byte → Byte → Instr) : List Byte → Option (Instr × List Byte)
  | a :: b :: rest => some (mk a b, rest)
  | [_] => none
  | [] => none

/-- Read exactly the row's operand bytes (30_encoding.md R72, R81). -/
def decodeOperands : Mnemonic → List Byte → Option (Instr × List Byte)
  | .ldi, bs => twoOperands .ldi bs
  | .prn, bs => oneOperand .prn bs
  | .add, bs => twoOperands .add bs
  | .sub, bs => twoOperands .sub bs
  | .mul, bs => twoOperands .mul bs
  | .div, bs => twoOperands .div bs
  | .mod, bs => twoOperands .mod bs
  | .and, bs => twoOperands .and bs
  | .or, bs => twoOperands .or bs
  | .xor, bs => twoOperands .xor bs
  | .not, bs => oneOperand .not bs
  | .shl, bs => twoOperands .shl bs
  | .shr, bs => twoOperands .shr bs
  | .push, bs => oneOperand .push bs
  | .pop, bs => oneOperand .pop bs
  | .call, bs => oneOperand .call bs
  | .ret, bs => some (.ret, bs)
  | .cmp, bs => twoOperands .cmp bs
  | .jmp, bs => oneOperand .jmp bs
  | .jeq, bs => oneOperand .jeq bs
  | .jne, bs => oneOperand .jne bs
  | .hlt, bs => some (.hlt, bs)

/-- The instruction at the head of the bytes and the bytes after it. The checks stand in the order of the step
(30_encoding.md R80): an opcode to read, a known opcode, its operand bytes. -/
def decode (c : Config) : List Byte → Except DecodeError (Instr × List Byte)
  | [] => .error .noOpcode
  | op :: rest =>
    match mnemonicOf c op with
    | none => .error (.unknownOpcode op)
    | some m =>
      match decodeOperands m rest with
      | none => .error (.missingOperand op)
      | some r => .ok r

/-! ## Encoding -/

/-- The operand bytes in address order (30_encoding.md R71). -/
def operandBytes : Instr → List Byte
  | .ldi a imm => [a, imm]
  | .prn a => [a]
  | .add a b => [a, b]
  | .sub a b => [a, b]
  | .mul a b => [a, b]
  | .div a b => [a, b]
  | .mod a b => [a, b]
  | .and a b => [a, b]
  | .or a b => [a, b]
  | .xor a b => [a, b]
  | .not a => [a]
  | .shl a b => [a, b]
  | .shr a b => [a, b]
  | .push a => [a]
  | .pop a => [a]
  | .call a => [a]
  | .ret => []
  | .cmp a b => [a, b]
  | .jmp a => [a]
  | .jeq a => [a]
  | .jne a => [a]
  | .hlt => []

/-- The bytes of an instruction, opcode first, at rising addresses (20_memory.md R55, 30_encoding.md R71). -/
def encode (c : Config) (i : Instr) : List Byte := opcodeOf c i.mnemonic :: operandBytes i

/-! ## The host's view of the opcode table -/

/-- The three bytes (the longest instruction) whose bits are `w`: byte 0 holds bits 7..0, byte 1 bits 15..8, byte 2 bits
23..16; bits at `nbits` and above are 0. -/
def tableBytes (nbits w : Nat) : List Byte :=
  [BitVec.ofNat 8 (w % 2 ^ nbits), BitVec.ofNat 8 (w % 2 ^ nbits / 2 ^ 8), BitVec.ofNat 8 (w % 2 ^ nbits / 2 ^ 16)]

/-- The instruction the decoder reads from an instruction whose bits are `w`, numbered as spec/opcode_table.json numbers
them; `none` where it refuses. -/
def decodeTableWord (nbits w : Nat) : Option Instr :=
  match decode defaultConfig (tableBytes nbits w) with
  | .ok (i, _) => some i
  | .error _ => none

/-! ## Printed form -/

/-- The name of each row as 30_encoding.md R75 and R85 write it. -/
def mnemonicText : Mnemonic → String
  | .ldi => "LDI"
  | .prn => "PRN"
  | .add => "ADD"
  | .sub => "SUB"
  | .mul => "MUL"
  | .div => "DIV"
  | .mod => "MOD"
  | .and => "AND"
  | .or => "OR"
  | .xor => "XOR"
  | .not => "NOT"
  | .shl => "SHL"
  | .shr => "SHR"
  | .push => "PUSH"
  | .pop => "POP"
  | .call => "CALL"
  | .ret => "RET"
  | .cmp => "CMP"
  | .jmp => "JMP"
  | .jeq => "JEQ"
  | .jne => "JNE"
  | .hlt => "HLT"

/-- An operand byte as a register name. -/
def regText (a : Byte) : String := "R" ++ toString a.toNat

/-- The assembler spelling of 30_encoding.md R85, the immediate in decimal. -/
def asmText (i : Instr) : String :=
  let operands :=
    match formatOf i.mnemonic, operandBytes i with
    | .fr, [a] => " " ++ regText a
    | .frr, [a, b] => " " ++ regText a ++ ", " ++ regText b
    | .fri, [a, imm] => " " ++ regText a ++ ", " ++ toString imm.toNat
    | _, _ => ""
  mnemonicText i.mnemonic ++ operands

end Sys2Proof
end

