-- ==== Sys2Proof/Machine/State.lean ====
section
/-! DEFINITION. The complete architectural state (10_state.md R38), its reset value (R39), and the reasons a step
answers no next state. State is plain data. Beside the architectural state it carries the configuration the machine was
built with, which the spec does not count as state and no step writes (00_scope.md R8, R38; log 22). -/

namespace Sys2Proof.Machine

/-- The run state (10_state.md R32). -/
inductive RunState where
  | idle
  | running
  | halted
  | faulted
  deriving DecidableEq, Repr

/-- The six kinds of fault the core raises (60_exceptions.md R200). -/
inductive FaultKind where
  | unknownOpcode
  | outOfBounds
  | divisionByZero
  | moduloByZero
  | stackUnderflow
  | stackOverflow
  deriving DecidableEq, Repr

/-- The fault record: the kind, the address of the faulting instruction, and the opcode byte there, absent when none
could be fetched (10_state.md R34, 60_exceptions.md R201). -/
structure FaultRecord where
  kind : FaultKind
  pc : Nat
  opcode : Option Byte
  deriving DecidableEq, Repr

/-- The three condition flags, each stored on its own (10_state.md R30). -/
structure Flags where
  eq : Bool
  lt : Bool
  gt : Bool
  deriving DecidableEq, Repr

/-- Memory: the cells that hold a nonzero byte, by address (log 3). -/
abbrev Memory := List Host.Cell

/-- The canonical form: addresses strictly rising, inside memory, and no cell equal to what an unlisted address reads as,
which is 0 (10_state.md R39). -/
abbrev Memory.wf (m : Memory) : Prop :=
  m.Pairwise (fun c d => c.1 < d.1) ∧ ∀ c ∈ m, c.1 < memSize ∧ c.2 ≠ 0

/-- The complete architectural state (10_state.md R38), and the configuration the machine runs with. -/
structure State where
  /-- The parameters of 00_scope.md R8: configuration, not state; fixed for the machine (log 22). -/
  config : Config
  /-- 256 byte cells (20_memory.md R50). -/
  mem : Memory
  /-- R0 to R7; R7 is the stack pointer (10_state.md R20, R21). -/
  x : Vector Byte 8
  /-- The program counter, a natural number that never wraps (10_state.md R26, R29). -/
  pc : Nat
  /-- EQ, LT, GT (10_state.md R30). -/
  flags : Flags
  /-- The run state (10_state.md R32). -/
  run : RunState
  /-- The fault record, once there is one (10_state.md R34). -/
  fault : Option FaultRecord
  /-- The image length L (10_state.md R35). -/
  imageLen : Nat
  /-- The bytes PRN has emitted, oldest first (10_state.md R36). -/
  out : List Byte
  deriving DecidableEq, Repr

/-- Reset is construction: every piece of state at the value of 10_state.md R39 (70_reset_and_hazards.md R230), in a machine
built with the configuration `c`. -/
def State.resetWith (c : Config) : State where
  config := c
  mem := []
  x := #v[0, 0, 0, 0, 0, 0, 0, 0xF4]
  pc := 0
  flags := ⟨false, false, false⟩
  run := .idle
  fault := none
  imageLen := 0
  out := []

/-- The machine right after reset, with the default parameters (00_scope.md R8). -/
def State.reset : State := State.resetWith defaultConfig

/-- Why `step` answers no next state. The six faults of 60_exceptions.md R200 are NOT here: the machine takes them, in a
next state whose run state is `faulted` (R207, log 2). These three say only that there is no step outside `running`
(30_encoding.md R83; DESIGN CHOICE, safe, log 1). -/
inductive Fault where
  /-- Raised by `step` before the host invokes run. Safe: the spec gives no step there. -/
  | noStepIdle
  /-- Raised by `step` after HLT. Safe: the state is terminal, no further fetch occurs. -/
  | noStepHalted
  /-- Raised by `step` after a fault was taken. Safe: the state is terminal, no further fetch occurs. -/
  | noStepFaulted
  deriving DecidableEq, Repr

/-- What the model gives no meaning. -/
inductive Refusal where
  /-- Raised by `exec` for an instruction that has no meaning yet; no arm of `exec` answers it now. Safe. -/
  | notModelled (mnemonic : String)
  /-- Raised by the host action load outside `idle` (D19). Safe: the action has no move. -/
  | hostLoadOutsideIdle
  /-- Raised by the host action load when this construction has already had its one load (D19). Safe. -/
  | hostSecondLoad
  /-- Raised by the host action load for an image of more than 256 bytes (70_reset_and_hazards.md R232). Safe. -/
  | hostImageTooLong
  /-- Raised by the host action run outside `idle` (D26). Safe: the action has no move. -/
  | hostRunOutsideIdle
  deriving DecidableEq, Repr

/-- What an instruction and a step answer. -/
abbrev Result := Host.Outcome State Fault Refusal

/-- The source's running flag is true exactly when the run state is `running` (10_state.md R33). -/
def State.runningFlag (s : State) : Bool := s.run == .running

end Sys2Proof.Machine
end

