-- ==== Sys2Proof/Machine/Ops.lean ====
section
/-! DEFINITION. The named operations over memory, registers, output and run state, the stack checks, and the one
operation that takes a fault (60_exceptions.md R207). There is no return from a fault (R208), so none is defined. -/

namespace Sys2Proof.Machine

/-! ## Memory -/

/-- The byte of a cell; an unlisted address holds its reset value 0 (10_state.md R39). -/
def cellAt : Memory → Nat → Byte
  | [], _ => 0
  | (b, w) :: m, a => if b = a then w else cellAt m a

/-- Put a cell into its place in rising order. -/
def insertCell (a : Nat) (v : Byte) : Memory → Memory
  | [] => [(a, v)]
  | (b, w) :: m => if a < b then (a, v) :: (b, w) :: m else (b, w) :: insertCell a v m

/-- Set one cell, keeping the canonical form: a cell of value 0 is not listed. -/
def setCell (m : Memory) (a : Nat) (v : Byte) : Memory :=
  if v = 0 then m.filter fun c => c.1 != a else insertCell a v (m.filter fun c => c.1 != a)

/-- `MemRead(addr, 1)`: the byte at the address; `none` is OutOfBounds (20_memory.md R51). -/
def memRead (m : Memory) (a : Nat) : Option Byte :=
  if a < memSize then some (cellAt m a) else none

/-- `MemWrite(addr, 1, v)`: the memory with one byte written; `none` is OutOfBounds (20_memory.md R51). -/
def memWrite (m : Memory) (a : Nat) (v : Byte) : Option Memory :=
  if a < memSize then some (setCell m a v) else none

/-- Copy bytes to rising addresses; a byte that would fall outside memory is dropped. -/
def writeBytes (m : Memory) (a : Nat) : List Byte → Memory
  | [] => m
  | v :: vs => writeBytes ((memWrite m a v).getD m) (a + 1) vs

/-! ## Registers, program counter, output -/

/-- `x[i]` (10_state.md R20). -/
def readReg (s : State) (r : RegIdx) : Byte := s.x[r]

/-- `x[i] <- v` (10_state.md R20). -/
def writeReg (s : State) (r : RegIdx) (v : Byte) : State := { s with x := s.x.set r v }

/-- `SP`, which is `x[7]` (10_state.md R21). -/
def sp (s : State) : Byte := readReg s spIdx

/-- Replace the memory, the rest kept. -/
def setMem (s : State) (m : Memory) : State := { s with mem := m }

/-- `pc <- t` (10_state.md R26). -/
def setPc (s : State) (t : Nat) : State := { s with pc := t }

/-- The generic advance by the row's length (10_state.md R27). -/
def advance (m : Mnemonic) (s : State) : State := setPc s (s.pc + lengthOf m)

/-- `emit(v)`: append to the output sequence (10_state.md R36). -/
def emit (s : State) (v : Byte) : State := { s with out := s.out ++ [v] }

/-- `halt` (46_halt.md R180). -/
def setHalted (s : State) : State := { s with run := .halted }

/-! ## Faults -/

/-- Fault entry, `raise K(p, op)`: the run state becomes `faulted`, the record is written with `p` the program counter,
and nothing else changes (60_exceptions.md R207). -/
def raiseFault (k : FaultKind) (op : Option Byte) (s : State) : State :=
  { s with run := .faulted, fault := some ⟨k, s.pc, op⟩ }

/-- What an instruction's rule gives: the state it leaves, or the kind it raises with nothing written (00_scope.md R10,
60_exceptions.md R204). -/
abbrev RuleResult := Except FaultKind State

/-- Finish the instruction of row `m` begun in `s`: its rule's state, or the fault taken in `s` itself, with the opcode
of its row, so that a faulting instruction writes nothing (60_exceptions.md R204, R207; log 14). -/
def finish (m : Mnemonic) (s : State) : RuleResult → Result
  | .ok t => .next t
  | .error k => .next (raiseFault k (some (opcodeOf s.config m)) s)

/-! ## The stack -/

/-- `CheckPush(sp)`, its three checks in order (42_stack.md R143; D12, log 6). -/
def checkPush (c : Config) (imageLen : Nat) (sp : Byte) : Except FaultKind Unit :=
  if sp.toNat = 0 then .error .stackUnderflow
  else if sp.toNat - 1 < stackFloorOf c imageLen then .error .stackOverflow
  else if c.stackTop ≤ sp.toNat - 1 then .error .stackUnderflow
  else .ok ()

/-- `CheckPop(sp)`, its two checks in order (42_stack.md R143; D12, log 6). -/
def checkPop (c : Config) (imageLen : Nat) (sp : Byte) : Except FaultKind Unit :=
  if c.stackTop ≤ sp.toNat then .error .stackUnderflow
  else if sp.toNat < stackFloorOf c imageLen then .error .stackOverflow
  else .ok ()

/-- The decrement of a push: `x[7] <- sp - 1` (42_stack.md R140, R141). -/
def decSp (s : State) : State := writeReg s spIdx (sp s - 1)

/-- The increment of a pop: `x[7] <- (x[7] + 1) mod 256` (42_stack.md R140, R142). -/
def incSp (s : State) : State := writeReg s spIdx (sp s + 1)

/-- `MemWrite(x[7], 1, v)`. The stack pointer is a byte, so OutOfBounds cannot arise (60_exceptions.md R202, log 18). -/
def storeAtSp (s : State) (v : Byte) : RuleResult :=
  match memWrite s.mem (sp s).toNat v with
  | some m => .ok (setMem s m)
  | none => .error .outOfBounds

/-- `MemRead(x[7], 1)`. The stack pointer is a byte, so OutOfBounds cannot arise (60_exceptions.md R202, log 18). -/
def loadAtSp (s : State) : Except FaultKind Byte :=
  match memRead s.mem (sp s).toNat with
  | some v => .ok v
  | none => .error .outOfBounds

/-- The first half of a push: the check, then the decrement (42_stack.md R141, 43_subroutine.md R150). -/
def beginPush (s : State) : RuleResult :=
  match checkPush s.config s.imageLen (sp s) with
  | .ok () => .ok (decSp s)
  | .error k => .error k

/-- The first half of a pop: the check, then the read (42_stack.md R142, 43_subroutine.md R151). -/
def popByte (s : State) : Except FaultKind Byte :=
  match checkPop s.config s.imageLen (sp s) with
  | .ok () => loadAtSp s
  | .error k => .error k

end Sys2Proof.Machine
end

