-- ==== Sys2Proof/Machine/Operands.lean ====
section
/-! DEFINITION. The operand forms: a register-index byte (10_state.md R22, 30_encoding.md R72). LDI's immediate is the
byte as it stands (30_encoding.md R73) and needs no operation. No operand is a memory address (20_memory.md R52). -/

namespace Sys2Proof.Machine

/-- The register a byte names; 8 or more names none and raises OutOfBounds (10_state.md R22). -/
def regIndex (a : Byte) : Except FaultKind RegIdx :=
  if h : a.toNat < 8 then .ok ⟨a.toNat, h⟩ else .error .outOfBounds

/-- Run a rule on the register that regA names. -/
def withReg (a : Byte) (rule : RegIdx → RuleResult) : RuleResult :=
  match regIndex a with
  | .ok r => rule r
  | .error k => .error k

/-- Run a rule on the registers that regA and regB name, regA checked first (60_exceptions.md R203). -/
def withRegs (a b : Byte) (rule : RegIdx → RegIdx → RuleResult) : RuleResult :=
  withReg a fun ra => withReg b fun rb => rule ra rb

end Sys2Proof.Machine
end

