-- ==== Sys2Proof/Machine/Alu.lean ====
section
/-! DEFINITION. The ALU as a pure function (41_alu.md R105, R121) and the eleven ALU instructions (R110 to R120). -/

namespace Sys2Proof.Machine

/-- The ALU's operations (41_alu.md R105). -/
inductive AluOp where
  | add | sub | mul | div | mod | and | or | xor | not | shl | shr
  deriving DecidableEq, Repr

/-- `ALU(op, u, v)` on bytes, unsigned and wrapping (41_alu.md R105, R106, R121; D1 to D4, log 10). The shift amount is
the whole value of `v`; NOT ignores `v`. -/
def alu (op : AluOp) (u v : Byte) : Except FaultKind Byte :=
  match op with
  | .add => .ok (u + v)
  | .sub => .ok (u - v)
  | .mul => .ok (u * v)
  | .div => if v = 0 then .error .divisionByZero else .ok (u / v)
  | .mod => if v = 0 then .error .moduloByZero else .ok (u % v)
  | .and => .ok (u &&& v)
  | .or => .ok (u ||| v)
  | .xor => .ok (u ^^^ v)
  | .not => .ok (~~~u)
  | .shl => .ok (u <<< v.toNat)
  | .shr => .ok (u >>> v.toNat)

/-- Write an ALU result to `r` and advance, or pass the ALU's fault on. -/
def writeAlu (m : Mnemonic) (r : RegIdx) (s : State) : Except FaultKind Byte → RuleResult
  | .ok v => .ok (advance m (writeReg s r v))
  | .error k => .error k

/-- The binary form regA <- ALU(op, regA, regB): both operands are read before the write (41_alu.md R107). -/
def aluBinary (op : AluOp) (m : Mnemonic) (a b : Byte) (s : State) : Result :=
  finish m s (withRegs a b fun ra rb => writeAlu m ra s (alu op (readReg s ra) (readReg s rb)))

/-- ADD (41_alu.md R110). -/
def execAdd (a b : Byte) (s : State) : Result := aluBinary .add .add a b s

/-- SUB (41_alu.md R111). -/
def execSub (a b : Byte) (s : State) : Result := aluBinary .sub .sub a b s

/-- MUL (41_alu.md R112). -/
def execMul (a b : Byte) (s : State) : Result := aluBinary .mul .mul a b s

/-- DIV, which takes DivisionByZero on a zero divisor (41_alu.md R113). -/
def execDiv (a b : Byte) (s : State) : Result := aluBinary .div .div a b s

/-- MOD, which takes ModuloByZero on a zero divisor (41_alu.md R114, C1). -/
def execMod (a b : Byte) (s : State) : Result := aluBinary .mod .mod a b s

/-- AND (41_alu.md R115). -/
def execAnd (a b : Byte) (s : State) : Result := aluBinary .and .and a b s

/-- OR (41_alu.md R116). -/
def execOr (a b : Byte) (s : State) : Result := aluBinary .or .or a b s

/-- XOR (41_alu.md R117). -/
def execXor (a b : Byte) (s : State) : Result := aluBinary .xor .xor a b s

/-- NOT, the unary form: its second ALU operand is ignored, 0 here (41_alu.md R105, R118). -/
def execNot (a : Byte) (s : State) : Result :=
  finish .not s (withReg a fun ra => writeAlu .not ra s (alu .not (readReg s ra) 0))

/-- SHL (41_alu.md R119). -/
def execShl (a b : Byte) (s : State) : Result := aluBinary .shl .shl a b s

/-- SHR (41_alu.md R120). -/
def execShr (a b : Byte) (s : State) : Result := aluBinary .shr .shr a b s

end Sys2Proof.Machine
end

