-- ==== Sys2Proof/Machine/Flags.lean ====
section
/-! DEFINITION. The flag computation of CMP, the only one the machine has (10_state.md R31, 44_compare.md R160). -/

namespace Sys2Proof.Machine

/-- EQ, LT and GT of two bytes, compared unsigned (44_compare.md R160; D2, log 10). -/
def compareFlags (u v : Byte) : Flags where
  eq := decide (u.toNat = v.toNat)
  lt := decide (u.toNat < v.toNat)
  gt := decide (v.toNat < u.toNat)

/-- Overwrite all three flags (44_compare.md R160). -/
def setFlags (s : State) (f : Flags) : State := { s with flags := f }

end Sys2Proof.Machine
end

