-- ==== Sys2Proof/Machine/Compare.lean ====
section
/-! DEFINITION. CMP (44_compare.md). -/

namespace Sys2Proof.Machine

/-- CMP: all three flags from the unsigned comparison, no register written (44_compare.md R160). -/
def execCmp (a b : Byte) (s : State) : Result :=
  finish .cmp s (withRegs a b fun ra rb =>
    .ok (advance .cmp (setFlags s (compareFlags (readReg s ra) (readReg s rb)))))

end Sys2Proof.Machine
end

