-- ==== Sys2Proof/Machine/Halt.lean ====
section
/-! DEFINITION. HLT (46_halt.md). -/

namespace Sys2Proof.Machine

/-- HLT: the run state becomes `halted` and the generic advance applies (46_halt.md R180). -/
def execHlt (s : State) : Result := finish .hlt s (.ok (advance .hlt (setHalted s)))

end Sys2Proof.Machine
end

