-- ==== Sys2Proof/Machine/Jump.lean ====
section
/-! DEFINITION. JMP, JEQ and JNE (45_jump.md). -/

namespace Sys2Proof.Machine

/-- A jump through regA when `taken`, else the generic advance. The index is checked in both cases (45_jump.md R171,
R172). -/
def jumpIf (taken : Bool) (m : Mnemonic) (a : Byte) (s : State) : Result :=
  finish m s (withReg a fun ra => .ok (if taken then setPc s (readReg s ra).toNat else advance m s))

/-- JMP (45_jump.md R170). -/
def execJmp (a : Byte) (s : State) : Result := jumpIf true .jmp a s

/-- JEQ: taken when EQ is set (45_jump.md R171). -/
def execJeq (a : Byte) (s : State) : Result := jumpIf s.flags.eq .jeq a s

/-- JNE: taken when EQ is clear (45_jump.md R172). -/
def execJne (a : Byte) (s : State) : Result := jumpIf (!s.flags.eq) .jne a s

end Sys2Proof.Machine
end

