-- ==== Sys2Proof/Machine/LoadOutput.lean ====
section
/-! DEFINITION. LDI and PRN (40_load_output.md). -/

namespace Sys2Proof.Machine

/-- LDI: `x[a] <- imm`, the literal byte (40_load_output.md R100). -/
def execLdi (a imm : Byte) (s : State) : Result :=
  finish .ldi s (withReg a fun ra => .ok (advance .ldi (writeReg s ra imm)))

/-- PRN: `emit(x[a])` (40_load_output.md R101). -/
def execPrn (a : Byte) (s : State) : Result :=
  finish .prn s (withReg a fun ra => .ok (advance .prn (emit s (readReg s ra))))

end Sys2Proof.Machine
end

