-- ==== Sys2Proof/Machine/Stack.lean ====
section
/-! DEFINITION. PUSH and POP (42_stack.md). -/

namespace Sys2Proof.Machine

/-- PUSH: the check, the decrement, then the write of `x[a]` as it stands after the decrement (42_stack.md R141; D10, log
12). -/
def execPush (a : Byte) (s : State) : Result :=
  finish .push s <| withReg a fun ra =>
    match beginPush s with
    | .error k => .error k
    | .ok t =>
      match storeAtSp t (readReg t ra) with
      | .error k => .error k
      | .ok u => .ok (advance .push u)

/-- POP: the check, the load into `x[a]`, then the increment of `x[7]` as it stands after the load (42_stack.md R142;
D10, log 12). -/
def execPop (a : Byte) (s : State) : Result :=
  finish .pop s <| withReg a fun ra =>
    match popByte s with
    | .error k => .error k
    | .ok v => .ok (advance .pop (incSp (writeReg s ra v)))

end Sys2Proof.Machine
end

