-- ==== Sys2Proof/Machine/Subroutine.lean ====
section
/-! DEFINITION. CALL and RET (43_subroutine.md). -/

namespace Sys2Proof.Machine

/-- The byte that holds a return address; an address of 256 or more fits no byte and raises OutOfBounds (43_subroutine.md
R150; D11, log 13). -/
def returnByte (ret : Nat) : Except FaultKind Byte :=
  if ret < memSize then .ok (BitVec.ofNat 8 ret) else .error .outOfBounds

/-- CALL: the return-address check, the push, then `pc <- x[a]` as it stands after the push (43_subroutine.md R150; D10,
log 12). -/
def execCall (a : Byte) (s : State) : Result :=
  finish .call s <| withReg a fun ra =>
    match returnByte (s.pc + lengthOf .call) with
    | .error k => .error k
    | .ok ret =>
      match beginPush s with
      | .error k => .error k
      | .ok t =>
        match storeAtSp t ret with
        | .error k => .error k
        | .ok u => .ok (setPc u (readReg u ra).toNat)

/-- RET: the check, `pc <- mem[sp]`, then the increment (43_subroutine.md R151). -/
def execRet (s : State) : Result :=
  finish .ret s <|
    match popByte s with
    | .error k => .error k
    | .ok v => .ok (incSp (setPc s v.toNat))

end Sys2Proof.Machine
end

