-- ==== Sys2Proof/Machine/Fetch.lean ====
section
/-! DEFINITION. Fetching and decoding at the program counter, the faults the fetch takes, and what `step` answers where
there is no step (30_encoding.md R80 to R83). -/

namespace Sys2Proof.Machine

/-- The bytes at `p`, `p + 1`, `p + 2` that lie in memory. The decoder takes from these exactly the instruction's own bytes
(30_encoding.md R81); looking at a byte has no effect (20_memory.md R54; log 4). -/
def fetchWindow (m : Memory) (p : Nat) : List Byte := [p, p + 1, p + 2].filterMap (memRead m)

/-- The fault a failed fetch takes and the opcode it records: none to read at `p >= 256`, an unknown opcode, a missing
operand byte (30_encoding.md R80, 60_exceptions.md R200, R201). -/
def fetchFault : DecodeError → FaultKind × Option Byte
  | .noOpcode => (.outOfBounds, none)
  | .unknownOpcode op => (.unknownOpcode, some op)
  | .missingOperand op => (.outOfBounds, some op)

/-- The instruction at the program counter by the machine's dispatch table, or the fault its fetch takes. -/
def fetchDecode (s : State) : Except (FaultKind × Option Byte) Instr :=
  match decode s.config (fetchWindow s.mem s.pc) with
  | .ok (i, _) => .ok i
  | .error e => .error (fetchFault e)

/-- Outside `running` there is no step (30_encoding.md R83; DESIGN CHOICE, safe, log 1). `none` is `running`. -/
def noStep : RunState → Option Fault
  | .running => none
  | .idle => some .noStepIdle
  | .halted => some .noStepHalted
  | .faulted => some .noStepFaulted

/-- Memory with a word of the opcode table at the program counter, as `decodeTableWord` reads it (log 7). -/
def placeWord (s : State) (nbits w : Nat) : State :=
  { s with mem := writeBytes s.mem s.pc (tableBytes nbits w), run := .running }

end Sys2Proof.Machine
end

