-- ==== Sys2Proof/Machine/Step.lean ====
section
/-! DEFINITION. One step of the interpreter loop: one whole instruction (30_encoding.md R80, 70_reset_and_hazards.md
R245). -/

namespace Sys2Proof.Machine

/-- One step: fetch and decode at the program counter, then the instruction's rule; a failed fetch takes its fault. Defined
only while running (30_encoding.md R80, R83). -/
def step (s : State) : Host.Outcome State Fault Refusal :=
  match noStep s.run with
  | some f => .fault f
  | none =>
    match fetchDecode s with
    | .ok i => exec i s
    | .error (k, op) => .next (raiseFault k op s)

/-- The state with the opcode-table word where `step` fetches next, and running: it stands for the host's load and run
invocation, so that the very next step runs the word (log 7). -/
def State.withFetchWord (s : State) (nbits w : Nat) : State := placeWord s nbits w

end Sys2Proof.Machine
end

