-- ==== Sys2Proof/Machine/HostActions.lean ====
section
/-! DEFINITION. The host's interactions with the core (60_exceptions.md R220): construct, load, run, read the output, take
the snapshot. They are not steps of the machine. -/

namespace Sys2Proof.Machine

/-- The core and the host's one piece of bookkeeping: whether this construction has had its load (70_reset_and_hazards.md
R232; log 9). -/
structure HostSession where
  core : State
  loaded : Bool
  deriving DecidableEq, Repr

/-- Construct a core with parameters of its own (00_scope.md R8; log 22): the state after reset, nothing loaded. -/
def constructWith (c : Config) : HostSession := ⟨State.resetWith c, false⟩

/-- Construct, the host supplying nothing: the default parameters (60_exceptions.md R220, 70_reset_and_hazards.md R230). -/
def construct : HostSession := constructWith defaultConfig

/-- Load: in Idle, once, at most 256 bytes: the image goes to the addresses from 0 and its length is recorded
(70_reset_and_hazards.md R232; D19, log 9). -/
def hostLoad (image : List Byte) (h : HostSession) : Host.Outcome HostSession Fault Refusal :=
  if h.core.run ≠ .idle then .refused .hostLoadOutsideIdle
  else if h.loaded then .refused .hostSecondLoad
  else if memSize < image.length then .refused .hostImageTooLong
  else .next
    { core := { h.core with mem := writeBytes h.core.mem 0 image, imageLen := image.length }, loaded := true }

/-- Run invocation: Idle becomes Running (60_exceptions.md R206, R220; D26). -/
def hostRun (h : HostSession) : Host.Outcome HostSession Fault Refusal :=
  if h.core.run = .idle then .next { h with core := { h.core with run := .running } }
  else .refused .hostRunOutsideIdle

/-- The output sequence as the host reads it (60_exceptions.md R221). -/
def readOutput (h : HostSession) : List Byte := h.core.out

/-- What run reports at the end (60_exceptions.md R220). -/
inductive RunReport where
  | halted
  | faulted (record : FaultRecord)
  deriving DecidableEq, Repr

/-- The report of a terminal state; none where the run has not ended (70_reset_and_hazards.md R247). -/
def runReport (s : State) : Option RunReport :=
  match s.run with
  | .halted => some .halted
  | .faulted => s.fault.map .faulted
  | .running => none
  | .idle => none

/-- At most `fuel` steps of a running machine, to its end: the final state. `none` is "not ended", never a halt
(70_reset_and_hazards.md R248; log 16). -/
def runFuel : Nat → State → Option State
  | 0, s => if s.run = .halted ∨ s.run = .faulted then some s else none
  | fuel + 1, s =>
    if s.run = .halted ∨ s.run = .faulted then some s
    else
      match step s with
      | .next t => runFuel fuel t
      | .fault _ => none
      | .refused _ => none

/-- The trace snapshot (60_exceptions.md R222). -/
structure Snapshot where
  pc : Nat
  byte0 : Option Byte
  byte1 : Option Byte
  byte2 : Option Byte
  x : Vector Byte 8
  flags : Flags
  deriving DecidableEq, Repr

/-- Take the snapshot between steps: it reads and changes nothing; a byte outside memory is absent (60_exceptions.md R222;
D23, log 17). -/
def snapshot (s : State) : Snapshot where
  pc := s.pc
  byte0 := memRead s.mem s.pc
  byte1 := memRead s.mem (s.pc + 1)
  byte2 := memRead s.mem (s.pc + 2)
  x := s.x
  flags := s.flags

end Sys2Proof.Machine
end

