-- ==== Sys2Proof/Safety.lean ====
section
/-! DEFINITION. The terms claims are made in: the invariant of the state, what a run's end is, and what it means that an
instruction writes one register and nothing else. -/

namespace Sys2Proof.Machine

/-- The run has ended (70_reset_and_hazards.md R247). -/
def State.Ended (s : State) : Prop := s.run = .halted ∨ s.run = .faulted

/-- The invariant every step keeps. -/
structure State.Inv (s : State) : Prop where
  /-- Memory is in canonical form (log 3). -/
  memWf : s.mem.wf
  /-- The program counter is at most 256 (10_state.md R26). -/
  pcLe : s.pc ≤ 256
  /-- The image length is at most 256 (10_state.md R35). -/
  lenLe : s.imageLen ≤ 256
  /-- There is a fault record exactly in the run state `faulted` (10_state.md R34). -/
  faultIff : s.fault.isSome = true ↔ s.run = .faulted
  /-- The record names the program counter and the opcode byte there, absent outside memory (10_state.md R34). -/
  recordOk : ∀ r, s.fault = some r → r.pc = s.pc ∧ r.opcode = memRead s.mem s.pc
  /-- The configuration is a dispatch table: no byte is the opcode of two rows (30_encoding.md R77; log 22). -/
  configOk : DistinctOpcodes s.config

/-- A next state `t` in which the instruction begun in `s` took fault `k` with opcode `op`, and wrote nothing else
(60_exceptions.md R204, R207). -/
def Faults (s t : State) (k : FaultKind) (op : Option Byte) : Prop :=
  t = { s with run := .faulted, fault := some ⟨k, s.pc, op⟩ }

/-- Change the next state an answer gives; a fault or a refusal stays. -/
def mapNext (f : State → State) : Result → Result
  | .next t => .next (f t)
  | .fault r => .fault r
  | .refused r => .refused r

/-- Everything but the registers, memory and the program counter is the same in `t` as in `s`. -/
def SameControl (s t : State) : Prop :=
  t.flags = s.flags ∧ t.run = s.run ∧ t.fault = s.fault ∧ t.imageLen = s.imageLen ∧ t.out = s.out ∧
    t.config = s.config

/-- Every byte of memory reads in `t` as in `s`. -/
def SameMemory (s t : State) : Prop := ∀ a, memRead t.mem a = memRead s.mem a

/-- Every register reads in `t` as in `s`. -/
def SameRegs (s t : State) : Prop := ∀ k, readReg t k = readReg s k

/-- From `s` to `t`, register `r` takes the value `v`, the program counter advances by `n`, and nothing else changes: no
other register, no flag, no byte of memory, no output, no run state. -/
def WritesReg (s t : State) (r : RegIdx) (v n : Nat) : Prop :=
  (readReg t r).toNat = v ∧ (∀ k, k ≠ r → readReg t k = readReg s k) ∧ t.pc = s.pc + n ∧ SameControl s t ∧
    SameMemory s t

/-- From `s` to `t` only the program counter changes, to `p`. -/
def JumpsTo (s t : State) (p : Nat) : Prop :=
  t.pc = p ∧ SameControl s t ∧ SameRegs s t ∧ SameMemory s t

/-- A push is allowed: the slot `sp - 1` is a valid one (42_stack.md R143; D12, log 6). -/
def PushAllowed (s : State) : Prop :=
  stackFloorOf s.config s.imageLen < (sp s).toNat ∧ (sp s).toNat ≤ s.config.stackTop

/-- A pop is allowed: the slot `sp` is a valid one (42_stack.md R143; D12, log 6). -/
def PopAllowed (s : State) : Prop :=
  stackFloorOf s.config s.imageLen ≤ (sp s).toNat ∧ (sp s).toNat < s.config.stackTop

/-- From `s` to `t` a push has stored `v`: R7 is one less, the slot below the old stack pointer holds `v`, no other
register and no other byte of memory changes. -/
def Pushes (s t : State) (v : Byte) : Prop :=
  (readReg t spIdx).toNat = (sp s).toNat - 1 ∧ (∀ k, k ≠ spIdx → readReg t k = readReg s k) ∧
    memRead t.mem ((sp s).toNat - 1) = some v ∧
    (∀ a, a ≠ (sp s).toNat - 1 → memRead t.mem a = memRead s.mem a) ∧ SameControl s t

end Sys2Proof.Machine
end

