-- ==== Sys2Proof/Certificates/Slice0/Obligations.lean ====
section
/-! DEFINITION. The statements for the provers. A docstring names the rule of the spec a statement formalises; a statement
that rests on a decision of the spec (D<n> of 92_eei_decisions.md), on its general knowledge or on a choice of the model
says so and names the log entry. -/

open Sys2Proof Sys2Proof.Machine

/-! ## Encoding -/

/-- In every dispatch table (18 opcode bytes are configuration, D7, log 5; no byte for two rows, log 22) and for every
instruction, decoding its encoding gives it back and leaves the bytes after it. No operand bit is dropped. (30_encoding.md sections 1, 2.) -/
def Obligations.DecodeEncodeRoundTrip : Prop :=
  ∀ c : Config, DistinctOpcodes c → ∀ (i : Instr) (rest : List Byte), decode c (encode c i ++ rest) = .ok (i, rest)

/-- Whatever the decoder reads, the encoding of what it read is exactly the bytes it took: each byte sequence has one
meaning. (30_encoding.md sections 1, 2.) -/
def Obligations.EncodeDecodeRoundTrip : Prop :=
  ∀ (c : Config) (bs rest : List Byte) (i : Instr), decode c bs = .ok (i, rest) → encode c i ++ rest = bs

/-- R76: the source's four opcode bytes stand for LDI (3 bytes), ADD (3 bytes), PRN (2 bytes) and HLT (1 byte) whatever the
configuration. -/
def Obligations.SourceOpcodesAreFixed : Prop :=
  ∀ (c : Config) (a b : Byte) (rest : List Byte),
    decode c (0x82 :: a :: b :: rest) = .ok (.ldi a b, rest) ∧
    decode c (0xA0 :: a :: b :: rest) = .ok (.add a b, rest) ∧
    decode c (0x47 :: a :: rest) = .ok (.prn a, rest) ∧
    decode c (0x01 :: rest) = .ok (.hlt, rest)

/-- A word of each family, written out from the encodings of files 40 to 46, decodes to its instruction. The opcode bytes
are the default table's (general knowledge but for 0x82 and 0x01; D7, log 5). -/
def Obligations.WordsOfEachFamilyDecode : Prop :=
  decode defaultConfig [0b10000010, 0b00000101, 0b11111111] = .ok (.ldi 5 255, []) ∧
  decode defaultConfig [0b10100011, 0b00000110, 0b00000001] = .ok (.div 6 1, []) ∧
  decode defaultConfig [0b01101001, 0b00000010, 0b00000111] = .ok (.not 2, [7]) ∧
  decode defaultConfig [0b01000110, 0b00000100] = .ok (.pop 4, []) ∧
  decode defaultConfig [0b00010001, 0b00000001] = .ok (.ret, [1]) ∧
  decode defaultConfig [0b10100111, 0b00000000, 0b00000011] = .ok (.cmp 0 3, []) ∧
  decode defaultConfig [0b01010110, 0b00000011] = .ok (.jne 3, []) ∧
  decode defaultConfig [0b00000001] = .ok (.hlt, [])

/-! ## Memory and reset -/

/-- R51: both primitives fail exactly outside [0, 256); a read is a function of the memory and changes nothing; a write
changes exactly the one byte. -/
def Obligations.MemoryPrimitives : Prop :=
  ∀ (m : Memory) (a : Nat) (v : Byte),
    (memRead m a = none ↔ 256 ≤ a) ∧ (memWrite m a v = none ↔ 256 ≤ a) ∧
    ∀ m', memWrite m a v = some m' →
      memRead m' a = some v ∧ ∀ b, b ≠ a → memRead m' b = memRead m b

/-- Memories in canonical form that read alike at every address are the same data (the representation is the model's
choice, log 3). -/
def Obligations.CanonicalMemoryIsUnique : Prop :=
  ∀ m n : Memory, m.wf → n.wf → (∀ a, memRead m a = memRead n a) → m = n

/-- Reset: every piece of state at its value in 10_state.md section 5, and the machine with the default parameters. The
program counter rests on D6 (log 11) and the image length on D19 (log 9), decisions of the spec; that the configuration
stands in State, at its defaults, is the model's choice (log 22). -/
def Obligations.ResetValues : Prop :=
  (∀ a, a < 256 → memRead State.reset.mem a = some 0) ∧
  (∀ k, k ≠ spIdx → readReg State.reset k = 0) ∧ readReg State.reset spIdx = 0xF4 ∧
  State.reset.pc = 0 ∧ State.reset.flags = ⟨false, false, false⟩ ∧ State.reset.run = .idle ∧
  State.reset.fault = none ∧ State.reset.imageLen = 0 ∧ State.reset.out = [] ∧
  State.reset.config = defaultConfig

/-- The invariant holds right after reset: memory canonical (the model's representation, log 3), pc at most 256 (D5, log 11),
L at most 256, a fault record exactly when faulted and faithful, no opcode byte for two rows (the default table's bytes, D7,
log 5; the configuration in State, log 22). (10_state.md sections 2, 4, 5.) -/
def Obligations.ResetMeetsInv : Prop := State.reset.Inv

/-- Every step keeps the invariant: memory canonical (log 3), pc at most 256 (D5, log 11), L at most 256, a fault record
exactly when faulted, the record naming the pc and the opcode byte there, no opcode byte for two rows of the configuration
(log 22). (10_state.md sections 2, 4.) -/
def Obligations.StepKeepsInv : Prop := ∀ s t : State, s.Inv → step s = .next t → t.Inv

/-! ## The step -/

/-- A step runs the instruction its bytes decode to in the machine's dispatch table (log 22), and adds nothing around it.
(30_encoding.md section 3.) -/
def Obligations.StepRunsDecoded : Prop :=
  ∀ (s : State) (i : Instr) (rest : List Byte), s.run = .running →
    decode s.config (fetchWindow s.mem s.pc) = .ok (i, rest) → step s = exec i s

/-- When the bytes from the program counter on are an instruction's encoding, the step is that instruction, whatever bytes
follow, at any address: a shorter instruction at the top of memory runs. In every configuration that gives no byte to two
rows (log 22). (30_encoding.md section 3; opcode bytes: D7, log 5.) -/
def Obligations.StepRunsTheBytesAtPc : Prop :=
  ∀ (s : State) (i : Instr), s.run = .running → DistinctOpcodes s.config →
    (∀ k, k < (encode s.config i).length → memRead s.mem (s.pc + k) = (encode s.config i)[k]?) →
    step s = exec i s

/-- A byte that is no opcode raises UnknownOpcode with that byte and its address, in every configuration; with the default
table the opcodes are these 22 bytes (D7, log 5). The closed set is D8 (log 19), a decision of the spec. 0x00
is no opcode by default; that another configuration may give it to a row is the model's choice (log 23). (30_encoding.md
section 2.) -/
def Obligations.UnknownOpcodeFaults : Prop :=
  (∀ (s : State) (op : Byte), s.run = .running → memRead s.mem s.pc = some op →
    (∀ m : Mnemonic, opcodeOf s.config m ≠ op) → ∃ t, step s = .next t ∧ Faults s t .unknownOpcode (some op)) ∧
  (∀ (s : State) (op : Byte), s.run = .running → s.config = defaultConfig → memRead s.mem s.pc = some op →
    op ∉ ([0x82, 0x47, 0xA0, 0xA1, 0xA2, 0xA3, 0xA4, 0xA8, 0xAA, 0xAB, 0x69, 0xAC, 0xAD, 0x45, 0x46, 0x50, 0x11, 0xA7,
      0x54, 0x55, 0x56, 0x01] : List Byte) →
    ∃ t, step s = .next t ∧ Faults s t .unknownOpcode (some op))

/-- A fetch at 256 or more raises OutOfBounds with no opcode (D5, log 11), and an operand byte at 256 or more raises
OutOfBounds with the opcode, whatever the operands would be, in every configuration (log 22). (30_encoding.md section 3.) -/
def Obligations.FetchOutOfBoundsFaults : Prop :=
  ∀ s : State, s.run = .running →
    (256 ≤ s.pc → ∃ t, step s = .next t ∧ Faults s t .outOfBounds none) ∧
    (∀ (op : Byte) (m : Mnemonic), memRead s.mem s.pc = some op → mnemonicOf s.config op = some m →
      256 < s.pc + lengthOf m → ∃ t, step s = .next t ∧ Faults s t .outOfBounds (some op))

/-- R83: in Idle, Halted and Faulted there is no step. -/
def Obligations.NoStepOutsideRunning : Prop :=
  ∀ s t : State, s.run = .idle ∨ s.run = .halted ∨ s.run = .faulted → step s ≠ .next t

/-! ## Rules of the whole machine -/

/-- R206: the run-state machine. Run invocation takes Idle to Running; a running machine always steps, to Halted exactly
when HLT executes, to Faulted exactly when a fault is taken, else to Running; Halted and Faulted are terminal. -/
def Obligations.RunStateMachine : Prop :=
  (∀ h : HostSession, h.core.run = .idle →
    hostRun h = .next { h with core := { h.core with run := .running } }) ∧
  (∀ s : State, s.run = .running → ∃ t, step s = .next t ∧
    (t.run = .halted ∨ t.run = .faulted ∨ t.run = .running) ∧
    (t.run = .halted ↔ memRead s.mem s.pc = some 0x01) ∧
    (t.run = .faulted ↔ ∃ k op, Faults s t k op)) ∧
  (∀ s t : State, s.run = .halted ∨ s.run = .faulted → step s ≠ .next t)

/-- R207: fault entry changes the run state and the record and nothing else, whatever raised the fault; the record holds the
kind, the faulting address and the opcode byte there, absent for a fetch at 256 or more. -/
def Obligations.FaultEntryWritesOnlyTheRecord : Prop :=
  ∀ s t : State, step s = .next t → t.run = .faulted → ∃ k, Faults s t k (memRead s.mem s.pc)

/-- R161: the flags persist across every instruction but CMP, and CMP of 5 with 5 and of 3 with 5 give the source's flags. -/
def Obligations.FlagsPersistBetweenCompares : Prop :=
  (∀ (i : Instr) (s t : State), (∀ a b, i ≠ .cmp a b) → exec i s = .next t → t.flags = s.flags) ∧
  (∀ (ra rb : RegIdx) (s : State), readReg s ra = 5 → readReg s rb = 5 →
    ∃ t, exec (.cmp (regByte ra) (regByte rb)) s = .next t ∧ t.flags = ⟨true, false, false⟩) ∧
  (∀ (ra rb : RegIdx) (s : State), readReg s ra = 3 → readReg s rb = 5 →
    ∃ t, exec (.cmp (regByte ra) (regByte rb)) s = .next t ∧ t.flags = ⟨false, true, false⟩)

/-- R31: only a CMP that completes writes the flags, all three whatever they were; no fault changes one; JEQ and JNE read
EQ; nothing reads LT or GT, which show in the trace snapshot. -/
def Obligations.OnlyCmpWritesFlagsAndOnlyEqIsRead : Prop :=
  (∀ (i : Instr) (s t : State), exec i s = .next t → t.flags ≠ s.flags → ∃ ra rb, i = .cmp (regByte ra) (regByte rb)) ∧
  (∀ (s t : State), step s = .next t → t.run = .faulted → t.flags = s.flags) ∧
  (∀ (ra rb : RegIdx) (s : State) (f : Flags),
    exec (.cmp (regByte ra) (regByte rb)) { s with flags := f } = exec (.cmp (regByte ra) (regByte rb)) s) ∧
  (∀ (ra : RegIdx) (s : State) (l g : Bool), (readReg s ra).toNat ≠ s.pc + 2 →
    exec (.jeq (regByte ra)) { s with flags := ⟨true, l, g⟩ } ≠
      mapNext (fun t => { t with flags := ⟨true, l, g⟩ }) (exec (.jeq (regByte ra)) { s with flags := ⟨false, l, g⟩ }) ∧
    exec (.jne (regByte ra)) { s with flags := ⟨true, l, g⟩ } ≠
      mapNext (fun t => { t with flags := ⟨true, l, g⟩ }) (exec (.jne (regByte ra)) { s with flags := ⟨false, l, g⟩ })) ∧
  (∀ (i : Instr) (s : State) (l g : Bool), (∀ a b, i ≠ .cmp a b) →
    exec i { s with flags := ⟨s.flags.eq, l, g⟩ } =
      mapNext (fun t => { t with flags := ⟨t.flags.eq, l, g⟩ }) (exec i s)) ∧
  (∀ s : State, (snapshot s).flags = s.flags)

/-- R36: the output is empty at reset, PRN appends one byte to its end, nothing else writes it, and nothing in the core
reads it: a step does the same whatever was emitted before. -/
def Obligations.OutputIsWrittenOnlyByPrn : Prop :=
  State.reset.out = [] ∧
  (∀ (ra : RegIdx) (s : State), ∃ t, exec (.prn (regByte ra)) s = .next t ∧ t.out = s.out ++ [readReg s ra]) ∧
  (∀ (i : Instr) (s t : State), (∀ ra, i ≠ .prn (regByte ra)) → exec i s = .next t → t.out = s.out) ∧
  (∀ (s : State) (earlier : List Byte),
    step { s with out := earlier ++ s.out } = mapNext (fun t => { t with out := earlier ++ t.out }) (step s))

/-- The program counter after every instruction that completes: advanced by the length, without wrapping (D5, log 11), or
assigned by the instruction. CALL's target is regA as it stands after the push, so CALL R7 jumps to sp - 1 (D10, log 12), a
decision of the spec. (R27 says which of the two; the targets are 43_subroutine.md's and 45_jump.md's.) -/
def Obligations.PcAdvancesOrIsAssigned : Prop :=
  ∀ (i : Instr) (s t : State), s.run = .running → exec i s = .next t → t.run ≠ .faulted →
    match i with
    | .ldi _ _ => t.pc = s.pc + 3
    | .prn _ => t.pc = s.pc + 2
    | .add _ _ => t.pc = s.pc + 3
    | .sub _ _ => t.pc = s.pc + 3
    | .mul _ _ => t.pc = s.pc + 3
    | .div _ _ => t.pc = s.pc + 3
    | .mod _ _ => t.pc = s.pc + 3
    | .and _ _ => t.pc = s.pc + 3
    | .or _ _ => t.pc = s.pc + 3
    | .xor _ _ => t.pc = s.pc + 3
    | .not _ => t.pc = s.pc + 2
    | .shl _ _ => t.pc = s.pc + 3
    | .shr _ _ => t.pc = s.pc + 3
    | .push _ => t.pc = s.pc + 2
    | .pop _ => t.pc = s.pc + 2
    | .call a => ∃ r : RegIdx, a = regByte r ∧ t.pc = (readReg t r).toNat
    | .ret => memRead s.mem (sp s).toNat = some (BitVec.ofNat 8 t.pc) ∧ t.pc < 256
    | .cmp _ _ => t.pc = s.pc + 3
    | .jmp a => ∃ r : RegIdx, a = regByte r ∧ t.pc = (readReg s r).toNat
    | .jeq a => ∃ r : RegIdx, a = regByte r ∧ t.pc = if s.flags.eq then (readReg s r).toNat else s.pc + 2
    | .jne a => ∃ r : RegIdx, a = regByte r ∧ t.pc = if s.flags.eq then s.pc + 2 else (readReg s r).toNat
    | .hlt => t.pc = s.pc + 1

/-- R22: a register-index byte of 8 or more, regA or regB, raises OutOfBounds before anything is written, whatever else the
instruction would do; LDI's immediate is not checked. -/
def Obligations.BadRegisterIndexFaults : Prop :=
  (∀ (a b : Byte) (s : State), 8 ≤ a.toNat ∨ 8 ≤ b.toNat →
    ∀ i ∈ [Instr.add a b, .sub a b, .mul a b, .div a b, .mod a b, .and a b, .or a b, .xor a b, .shl a b, .shr a b,
        .cmp a b],
      ∃ t, exec i s = .next t ∧ Faults s t .outOfBounds (some (opcodeOf s.config i.mnemonic))) ∧
  (∀ (a : Byte) (s : State), 8 ≤ a.toNat →
    ∀ i ∈ [Instr.prn a, .not a, .push a, .pop a, .call a, .jmp a, .jeq a, .jne a],
      ∃ t, exec i s = .next t ∧ Faults s t .outOfBounds (some (opcodeOf s.config i.mnemonic))) ∧
  (∀ (a imm : Byte) (s : State), 8 ≤ a.toNat →
    ∃ t, exec (.ldi a imm) s = .next t ∧ Faults s t .outOfBounds (some 0x82)) ∧
  (∀ (ra : RegIdx) (imm : Byte) (s : State),
    ∃ t, exec (.ldi (regByte ra) imm) s = .next t ∧ readReg t ra = imm ∧ t.run = s.run)

/-- Which instruction may change which register: the "writes" column of the table in 10_state.md section 1, for every
instruction and every state, faults included. -/
def Obligations.RegistersChangeOnlyAsListed : Prop :=
  ∀ (i : Instr) (s t : State) (k : RegIdx), exec i s = .next t → readReg t k ≠ readReg s k →
    match i with
    | .ldi a _ => regByte k = a
    | .prn _ => False
    | .add a _ => regByte k = a
    | .sub a _ => regByte k = a
    | .mul a _ => regByte k = a
    | .div a _ => regByte k = a
    | .mod a _ => regByte k = a
    | .and a _ => regByte k = a
    | .or a _ => regByte k = a
    | .xor a _ => regByte k = a
    | .not a => regByte k = a
    | .shl a _ => regByte k = a
    | .shr a _ => regByte k = a
    | .push _ => k = spIdx
    | .pop a => regByte k = a ∨ k = spIdx
    | .call _ => k = spIdx
    | .ret => k = spIdx
    | .cmp _ _ => False
    | .jmp _ => False
    | .jeq _ => False
    | .jne _ => False
    | .hlt => False

/-- Only PUSH and CALL write memory, and only the byte just below the stack pointer. (20_memory.md section 1.) -/
def Obligations.MemoryChangesOnlyBelowSp : Prop :=
  ∀ (i : Instr) (s t : State) (a : Nat), exec i s = .next t → memRead t.mem a ≠ memRead s.mem a →
    ((∃ r : RegIdx, i = .push (regByte r)) ∨ (∃ r : RegIdx, i = .call (regByte r))) ∧ a + 1 = (sp s).toNat

/-- However long a machine runs, from whatever state and in whatever configuration, the bytes outside the stack region
[stackFloor, stackTop) keep their values, and L and the configuration are fixed: the stack checks confine every write. With
the default floor, and with every floor at or above L, the loaded image [0, L) is never overwritten. Rests on the stack
region of D12 (log 6), a decision of the spec. (42_stack.md, 10_state.md section 4.) -/
def Obligations.ImageIsNeverOverwritten : Prop :=
  ∀ (n : Nat) (s t : State), Sys2Proof.core.run n s = .next t →
    t.imageLen = s.imageLen ∧ t.config = s.config ∧
    (∀ a, a < stackFloorOf s.config s.imageLen ∨ s.config.stackTop ≤ a → memRead t.mem a = memRead s.mem a) ∧
    (s.config.stackFloor = .imageLength ∨ s.imageLen ≤ stackFloorOf s.config s.imageLen →
      ∀ a, a < s.imageLen → memRead t.mem a = memRead s.mem a)

/-! ## Load and output -/

/-- R100: LDI writes its literal byte to regA and advances by 3, and nothing else changes; from the bytes 82 a imm it runs;
its only faults are a register index of 8 or more and an operand byte outside memory. -/
def Obligations.LdiLoadsItsImmediate : Prop :=
  (∀ (ra : RegIdx) (imm : Byte) (s : State),
    ∃ t, exec (.ldi (regByte ra) imm) s = .next t ∧ WritesReg s t ra imm.toNat 3) ∧
  (∀ (s : State) (a imm : Byte), s.run = .running → memRead s.mem s.pc = some 0x82 →
    memRead s.mem (s.pc + 1) = some a → memRead s.mem (s.pc + 2) = some imm → step s = exec (.ldi a imm) s) ∧
  (∀ (a imm : Byte) (s : State), 8 ≤ a.toNat →
    ∃ t, exec (.ldi a imm) s = .next t ∧ Faults s t .outOfBounds (some 0x82)) ∧
  (∀ s : State, s.run = .running → memRead s.mem s.pc = some 0x82 → 256 ≤ s.pc + 2 →
    ∃ t, step s = .next t ∧ Faults s t .outOfBounds (some 0x82))

/-- R101: PRN appends regA's byte to the output and advances by 2, and nothing else changes; from the bytes 47 a it runs; its
only faults are a register index of 8 or more and an operand byte outside memory. -/
def Obligations.PrnEmitsItsRegister : Prop :=
  (∀ (ra : RegIdx) (s : State), ∃ t, exec (.prn (regByte ra)) s = .next t ∧
    t.out = s.out ++ [readReg s ra] ∧ t.pc = s.pc + 2 ∧ t.flags = s.flags ∧ t.run = s.run ∧ t.fault = s.fault ∧
    t.imageLen = s.imageLen ∧ t.config = s.config ∧ SameRegs s t ∧ SameMemory s t) ∧
  (∀ (s : State) (a : Byte), s.run = .running → memRead s.mem s.pc = some 0x47 →
    memRead s.mem (s.pc + 1) = some a → step s = exec (.prn a) s) ∧
  (∀ (a : Byte) (s : State), 8 ≤ a.toNat →
    ∃ t, exec (.prn a) s = .next t ∧ Faults s t .outOfBounds (some 0x47)) ∧
  (∀ s : State, s.run = .running → memRead s.mem s.pc = some 0x47 → 256 ≤ s.pc + 1 →
    ∃ t, step s = .next t ∧ Faults s t .outOfBounds (some 0x47))

/-- LDI then PRN of the same register emits exactly the literal. (40_load_output.md, the source's law.) -/
def Obligations.LdiThenPrnEmitsTheLiteral : Prop :=
  ∀ (ra : RegIdx) (v : Byte) (s : State), ∃ t u, exec (.ldi (regByte ra) v) s = .next t ∧
    exec (.prn (regByte ra)) t = .next u ∧ u.out = s.out ++ [v] ∧ u.pc = s.pc + 5

/-! ## The ALU -/

/-- R107: every binary ALU instruction is regA <- ALU(op, regA, regB) on the values before the write, writes only regA and
advances by 3, regA and regB the same register or not. -/
def Obligations.AluBinaryForm : Prop :=
  ∀ p ∈ ([(.add, .add), (.sub, .sub), (.mul, .mul), (.div, .div), (.mod, .mod), (.and, .and), (.or, .or), (.xor, .xor),
      (.shl, .shl), (.shr, .shr)] : List (AluOp × (Byte → Byte → Instr))),
    ∀ (ra rb : RegIdx) (s : State) (v : Byte), alu p.1 (readReg s ra) (readReg s rb) = .ok v →
      ∃ t, exec (p.2 (regByte ra) (regByte rb)) s = .next t ∧ WritesReg s t ra v.toNat 3

/-- ADD, SUB and MUL complete on every operand, with the result modulo 256, and change nothing but regA and the pc. The
8-bit width is D1 (log 10), a decision of the spec. (41_alu.md section 2.) -/
def Obligations.AddSubMulWrap : Prop :=
  ∀ (ra rb : RegIdx) (s : State),
    (∃ t, exec (.add (regByte ra) (regByte rb)) s = .next t ∧
      WritesReg s t ra (((readReg s ra).toNat + (readReg s rb).toNat) % 256) 3) ∧
    (∃ t, exec (.sub (regByte ra) (regByte rb)) s = .next t ∧
      WritesReg s t ra ((256 + (readReg s ra).toNat - (readReg s rb).toNat) % 256) 3) ∧
    (∃ t, exec (.mul (regByte ra) (regByte rb)) s = .next t ∧
      WritesReg s t ra (((readReg s ra).toNat * (readReg s rb).toNat) % 256) 3)

/-- DIV and MOD complete on every nonzero divisor, with the unsigned quotient and remainder, and change nothing but regA and
the pc. Unsigned integer division is D2 and D3 (log 10), decisions of the spec. (41_alu.md sections 1, 2.) -/
def Obligations.DivModOfNonzero : Prop :=
  ∀ (ra rb : RegIdx) (s : State), readReg s rb ≠ 0 →
    (∃ t, exec (.div (regByte ra) (regByte rb)) s = .next t ∧
      WritesReg s t ra ((readReg s ra).toNat / (readReg s rb).toNat) 3) ∧
    (∃ t, exec (.mod (regByte ra) (regByte rb)) s = .next t ∧
      WritesReg s t ra ((readReg s ra).toNat % (readReg s rb).toNat) 3)

/-- A zero divisor: DIV takes DivisionByZero and MOD takes ModuloByZero, and nothing else changes. The recorded opcode bytes
are the configuration's (D7, log 5; log 22). (41_alu.md section 2, 90_conflicts.md C1.) -/
def Obligations.DivModByZeroFaults : Prop :=
  ∀ (ra rb : RegIdx) (s : State), readReg s rb = 0 →
    (∃ t, exec (.div (regByte ra) (regByte rb)) s = .next t ∧
      Faults s t .divisionByZero (some (opcodeOf s.config .div))) ∧
    (∃ t, exec (.mod (regByte ra) (regByte rb)) s = .next t ∧
      Faults s t .moduloByZero (some (opcodeOf s.config .mod)))

/-- AND, OR and XOR complete on every operand, bit by bit, and NOT complements; each changes nothing but regA and the pc.
(41_alu.md section 2.) -/
def Obligations.BitwiseOperations : Prop :=
  ∀ (ra rb : RegIdx) (s : State),
    (∃ t, exec (.and (regByte ra) (regByte rb)) s = .next t ∧ WritesReg s t ra (readReg t ra).toNat 3 ∧
      ∀ i, i < 8 → (readReg t ra).getLsbD i = ((readReg s ra).getLsbD i && (readReg s rb).getLsbD i)) ∧
    (∃ t, exec (.or (regByte ra) (regByte rb)) s = .next t ∧ WritesReg s t ra (readReg t ra).toNat 3 ∧
      ∀ i, i < 8 → (readReg t ra).getLsbD i = ((readReg s ra).getLsbD i || (readReg s rb).getLsbD i)) ∧
    (∃ t, exec (.xor (regByte ra) (regByte rb)) s = .next t ∧ WritesReg s t ra (readReg t ra).toNat 3 ∧
      ∀ i, i < 8 → (readReg t ra).getLsbD i = ((readReg s ra).getLsbD i != (readReg s rb).getLsbD i)) ∧
    (∃ t, exec (.not (regByte ra)) s = .next t ∧ WritesReg s t ra (255 - (readReg s ra).toNat) 2)

/-- SHL and SHR complete on every operand, the amount being the whole value of regB: 8 or more gives 0. The unmasked amount
is D4 (log 10), a decision of the spec. (41_alu.md section 2.) -/
def Obligations.ShiftsByTheWholeAmount : Prop :=
  ∀ (ra rb : RegIdx) (s : State),
    (∃ t, exec (.shl (regByte ra) (regByte rb)) s = .next t ∧
      WritesReg s t ra (((readReg s ra).toNat * 2 ^ (readReg s rb).toNat) % 256) 3 ∧
      (8 ≤ (readReg s rb).toNat → readReg t ra = 0)) ∧
    (∃ t, exec (.shr (regByte ra) (regByte rb)) s = .next t ∧
      WritesReg s t ra ((readReg s ra).toNat / 2 ^ (readReg s rb).toNat) 3 ∧
      (8 ≤ (readReg s rb).toNat → readReg t ra = 0))

/-! ## Compare, jumps, halt -/

/-- CMP completes on every operand and sets all three flags from the unsigned comparison, exactly one of them true; no
register, byte of memory or output changes. The unsigned comparison is D2 (log 10), a decision of the spec.
(44_compare.md.) -/
def Obligations.CmpSetsAllThreeFlags : Prop :=
  ∀ (ra rb : RegIdx) (s : State), ∃ t, exec (.cmp (regByte ra) (regByte rb)) s = .next t ∧
    (t.flags.eq = true ↔ (readReg s ra).toNat = (readReg s rb).toNat) ∧
    (t.flags.lt = true ↔ (readReg s ra).toNat < (readReg s rb).toNat) ∧
    (t.flags.gt = true ↔ (readReg s rb).toNat < (readReg s ra).toNat) ∧
    ([t.flags.eq, t.flags.lt, t.flags.gt].count true = 1) ∧
    t.pc = s.pc + 3 ∧ t.run = s.run ∧ t.fault = s.fault ∧ t.imageLen = s.imageLen ∧ t.out = s.out ∧ t.config = s.config ∧
    SameRegs s t ∧ SameMemory s t

/-- JMP, JEQ and JNE complete in every state: the target is regA's value when taken, else the pc advances by 2; only EQ
decides, and nothing but the pc changes. (45_jump.md.) -/
def Obligations.JumpsGoThroughTheirRegister : Prop :=
  ∀ (ra : RegIdx) (s : State),
    (∃ t, exec (.jmp (regByte ra)) s = .next t ∧ JumpsTo s t (readReg s ra).toNat) ∧
    (∃ t, exec (.jeq (regByte ra)) s = .next t ∧
      JumpsTo s t (if s.flags.eq = true then (readReg s ra).toNat else s.pc + 2)) ∧
    (∃ t, exec (.jne (regByte ra)) s = .next t ∧
      JumpsTo s t (if s.flags.eq = true then s.pc + 2 else (readReg s ra).toNat))

/-- R180: HLT halts, advances the pc by 1, and changes no flag, register, byte of memory or output; from the byte 01 it runs at
any address, 255 too; after it there is no further step. -/
def Obligations.HltHalts : Prop :=
  (∀ s : State, ∃ t, exec .hlt s = .next t ∧ t.run = .halted ∧ t.pc = s.pc + 1 ∧ t.flags = s.flags ∧
    t.fault = s.fault ∧ t.imageLen = s.imageLen ∧ t.out = s.out ∧ t.config = s.config ∧ SameRegs s t ∧ SameMemory s t ∧
    ∀ u, step t ≠ .next u) ∧
  (∀ s : State, s.run = .running → memRead s.mem s.pc = some 0x01 → step s = exec .hlt s)

/-! ## Stack and subroutine -/

/-- PUSH completes whenever the stack check passes: it stores regA, read after the decrement, so PUSH R7 stores sp - 1. The
region, with any stackTop and stackFloor, is D12 (log 6) and the order D10 (log 12), decisions of the spec. (42_stack.md.) -/
def Obligations.PushStoresBelowSp : Prop :=
  ∀ (ra : RegIdx) (s : State), PushAllowed s →
    ∃ t, exec (.push (regByte ra)) s = .next t ∧ t.pc = s.pc + 2 ∧
      Pushes s t (if ra = spIdx then sp s - 1 else readReg s ra)

/-- POP completes whenever the stack check passes: regA takes the byte at sp and R7 goes up by one modulo 256, R7 being
incremented after the load when it is regA itself; no byte of memory changes. The region, with any stackTop and stackFloor,
is D12 (log 6) and the order D10 (log 12), decisions
of the spec. (42_stack.md.) -/
def Obligations.PopLoadsFromSp : Prop :=
  ∀ (ra : RegIdx) (s : State), PopAllowed s →
    ∃ v t, memRead s.mem (sp s).toNat = some v ∧ exec (.pop (regByte ra)) s = .next t ∧ t.pc = s.pc + 2 ∧
      SameControl s t ∧ SameMemory s t ∧
      (∀ k, k ≠ ra → k ≠ spIdx → readReg t k = readReg s k) ∧
      (ra ≠ spIdx → readReg t ra = v ∧ (readReg t spIdx).toNat = ((sp s).toNat + 1) % 256) ∧
      (ra = spIdx → (readReg t spIdx).toNat = (v.toNat + 1) % 256)

/-- CALL completes whenever its return address fits a byte and the stack check passes: it pushes pc + 2 and jumps to regA, read
after the push, so CALL R7 jumps to sp - 1. The return-address check is D11 (log 13), the region D12 (log 6), the order D10
(log 12), decisions of the spec. (43_subroutine.md.) -/
def Obligations.CallPushesReturnAddress : Prop :=
  ∀ (ra : RegIdx) (s : State), s.pc + 2 < 256 → PushAllowed s →
    ∃ t, exec (.call (regByte ra)) s = .next t ∧ Pushes s t (BitVec.ofNat 8 (s.pc + 2)) ∧
      t.pc = (if ra = spIdx then (sp s).toNat - 1 else (readReg s ra).toNat)

/-- RET completes whenever the stack check passes: the pc takes the byte at sp and R7 goes up by one modulo 256; nothing else
changes. The region, with any stackTop and stackFloor, is D12 (log 6), a decision of the spec. (43_subroutine.md.) -/
def Obligations.RetPopsIntoPc : Prop :=
  ∀ s : State, PopAllowed s →
    ∃ v t, memRead s.mem (sp s).toNat = some v ∧ exec .ret s = .next t ∧ t.pc = v.toNat ∧
      (readReg t spIdx).toNat = ((sp s).toNat + 1) % 256 ∧ (∀ k, k ≠ spIdx → readReg t k = readReg s k) ∧
      SameControl s t ∧ SameMemory s t

/-- Where PUSH and CALL trap on the stack pointer: at 0 StackUnderflow, at or below the floor StackOverflow, above the top
StackUnderflow; nothing else changes. The conditions are D12 (log 6), a decision of the spec; the recorded opcode bytes are
the configuration's (D7, log 5; log 22). (42_stack.md, 43_subroutine.md.) -/
def Obligations.PushAndCallStackFaults : Prop :=
  ∀ (ra : RegIdx) (s : State) (k : FaultKind),
    ((sp s).toNat = 0 ∧ k = .stackUnderflow) ∨
      ((sp s).toNat ≠ 0 ∧ (sp s).toNat ≤ stackFloorOf s.config s.imageLen ∧ k = .stackOverflow) ∨
      (stackFloorOf s.config s.imageLen < (sp s).toNat ∧ s.config.stackTop < (sp s).toNat ∧ k = .stackUnderflow) →
    (∃ t, exec (.push (regByte ra)) s = .next t ∧ Faults s t k (some (opcodeOf s.config .push))) ∧
    (s.pc + 2 < 256 → ∃ t, exec (.call (regByte ra)) s = .next t ∧ Faults s t k (some (opcodeOf s.config .call)))

/-- Where POP and RET trap on the stack pointer: at or above the top StackUnderflow, below the floor StackOverflow; nothing else
changes. The conditions are D12 (log 6), a decision of the spec; the recorded opcode bytes are the configuration's (D7, log
5; log 22). (42_stack.md, 43_subroutine.md.) -/
def Obligations.PopAndRetStackFaults : Prop :=
  ∀ (ra : RegIdx) (s : State) (k : FaultKind),
    (s.config.stackTop ≤ (sp s).toNat ∧ k = .stackUnderflow) ∨
      ((sp s).toNat < s.config.stackTop ∧ (sp s).toNat < stackFloorOf s.config s.imageLen ∧ k = .stackOverflow) →
    (∃ t, exec (.pop (regByte ra)) s = .next t ∧ Faults s t k (some (opcodeOf s.config .pop))) ∧
    (∃ t, exec .ret s = .next t ∧ Faults s t k (some (opcodeOf s.config .ret)))

/-- A CALL whose return address is 256 or more takes OutOfBounds, whatever the stack pointer. D11 (log 13) and the precedence
D13 (log 14), decisions of the spec; the recorded opcode byte is the configuration's (D7, log 5; log 22). (43_subroutine.md.) -/
def Obligations.CallReturnAddressFault : Prop :=
  ∀ (ra : RegIdx) (s : State), 256 ≤ s.pc + 2 →
    ∃ t, exec (.call (regByte ra)) s = .next t ∧ Faults s t .outOfBounds (some (opcodeOf s.config .call))

/-- A stack access never raises OutOfBounds: not PUSH, POP or RET with registers that exist, nor CALL whose return address
fits, in any state. Rests on D11 (log 13), a decision of the spec. (60_exceptions.md section 1, an inference of the spec.) -/
def Obligations.StackAccessIsNeverOutOfBounds : Prop :=
  ∀ (ra : RegIdx) (s : State) (op : Option Byte),
    (∀ i ∈ [Instr.push (regByte ra), .pop (regByte ra), .ret],
      ∃ t, exec i s = .next t ∧ (s.run = .running → ¬ Faults s t .outOfBounds op)) ∧
    (s.pc + 2 < 256 →
      ∃ t, exec (.call (regByte ra)) s = .next t ∧ (s.run = .running → ¬ Faults s t .outOfBounds op))

/-- PUSH of one register then POP of another: the second takes the first's value and the stack pointer is back. The region is
D12 (log 6), a decision of the spec. (42_stack.md, the source's law.) -/
def Obligations.PushThenPopRoundTrip : Prop :=
  ∀ (ra rb : RegIdx) (s : State), ra ≠ rb → ra ≠ spIdx → rb ≠ spIdx → PushAllowed s →
    ∃ t u, exec (.push (regByte ra)) s = .next t ∧ exec (.pop (regByte rb)) t = .next u ∧
      readReg u rb = readReg s ra ∧ sp u = sp s

/-- A CALL that completes, then a RET from any state that keeps R7, the byte there, L and the configuration (log 22) as the
CALL left them: the pc is back
just after the CALL, and so is the stack pointer. Rests on D11 and D12 (logs 13, 6), decisions of the spec.
(43_subroutine.md, the source's law.) -/
def Obligations.CallThenRetReturns : Prop :=
  ∀ (ra : RegIdx) (s : State), s.pc + 2 < 256 → PushAllowed s →
    ∃ t, exec (.call (regByte ra)) s = .next t ∧
      ∀ u, sp u = sp t → memRead u.mem (sp t).toNat = memRead t.mem (sp t).toNat → u.imageLen = t.imageLen →
        u.config = t.config →
        ∃ v, exec .ret u = .next v ∧ v.pc = s.pc + 2 ∧ sp v = sp s

/-! ## The host's actions -/

/-- Load on a fresh construction, whatever its parameters: an image of at most 256 bytes stands from address 0, the rest of
memory stays 0, its length is recorded, nothing else changes; a longer image and a second load are refused. The state after
it meets the invariant, whose canonical memory is the model's representation (log 3) and whose distinct opcode bytes are the
configuration's (log 22). D19 (log 9), a decision of the spec. (70_reset_and_hazards.md section 2.) -/
def Obligations.LoadPlacesTheImage : Prop :=
  ∀ c : Config,
  (∀ image : List Byte, image.length ≤ 256 → ∃ h, hostLoad image (constructWith c) = .next h ∧
    (∀ k, k < 256 → memRead h.core.mem k = some (image.getD k 0)) ∧
    h.core = { State.resetWith c with mem := h.core.mem, imageLen := image.length } ∧
    (DistinctOpcodes c → h.core.Inv) ∧
    ∀ again, hostLoad again h = .refused .hostSecondLoad) ∧
  (∀ image : List Byte, 256 < image.length → hostLoad image (constructWith c) = .refused .hostImageTooLong)

/-- A run under fuel that ends has ended: its state is Halted or Faulted and more fuel changes nothing; a state that is neither
Halted nor Faulted is never reported. Rests on D22 (log 16), a decision of the spec. (70_reset_and_hazards.md section 5.) -/
def Obligations.RunEndsOnlyWhenEnded : Prop :=
  ∀ (n : Nat) (s t : State), runFuel n s = some t →
    t.Ended ∧ (∀ k, runFuel (n + k) s = some t) ∧ ∃ k, k ≤ n ∧ Sys2Proof.core.run k s = .next t

/-- The trace snapshot shows the pc, the three bytes from it on, each absent exactly when its address is 256 or more, the
registers and the flags. Absence at the top of memory is D23 (log 17), a decision of the spec. (60_exceptions.md section
6.) -/
def Obligations.SnapshotShowsTheState : Prop :=
  ∀ s : State, (snapshot s).pc = s.pc ∧ (∀ k : RegIdx, (snapshot s).x[k] = readReg s k) ∧ (snapshot s).flags = s.flags ∧
    [(snapshot s).byte0, (snapshot s).byte1, (snapshot s).byte2] =
      [memRead s.mem s.pc, memRead s.mem (s.pc + 1), memRead s.mem (s.pc + 2)] ∧
    ((snapshot s).byte0 = none ↔ 256 ≤ s.pc) ∧ ((snapshot s).byte1 = none ↔ 256 ≤ s.pc + 1) ∧
    ((snapshot s).byte2 = none ↔ 256 ≤ s.pc + 2)

/-! ## The parameters -/

/-- The configuration reaches every value of the three parameters of 00_scope.md section 4: every `stackTop`, every rule for
`stackFloor` from the image length, every opcode byte for the 18 rows the source does not give; and the defaults are 0xF4,
the image length, and the table's bytes (D7, D12; logs 5, 6). That 0x00 may be among the 18 bytes is the model's choice (log
23). -/
def Obligations.ConfigurationCoversTheParameters : Prop :=
  (∀ (top : Nat) (floor : Nat → Nat) (byte : Mnemonic → Byte), ∃ c : Config, c.stackTop = top ∧
    (∀ L, L ≤ 256 → stackFloorOf c L = floor L) ∧
    ∀ m, m ∉ [Mnemonic.ldi, .prn, .add, .hlt] → opcodeOf c m = byte m) ∧
  defaultConfig.stackTop = 0xF4 ∧ (∀ L, stackFloorOf defaultConfig L = L) ∧
  [Mnemonic.sub, .mul, .div, .mod, .and, .or, .xor, .not, .shl, .shr, .push, .pop, .call, .ret, .cmp, .jmp, .jeq,
      .jne].map (opcodeOf defaultConfig) =
    [0xA1, 0xA2, 0xA3, 0xA4, 0xA8, 0xAA, 0xAB, 0x69, 0xAC, 0xAD, 0x45, 0x46, 0x50, 0x11, 0xA7, 0x54, 0x55, 0x56]

/-- The configuration is fixed for the machine: no instruction, no step, and neither load nor run changes it. That it is
carried in State is the model's choice (log 22). (00_scope.md section 4, 10_state.md section 4.) -/
def Obligations.ConfigurationNeverChanges : Prop :=
  (∀ (i : Instr) (s t : State), exec i s = .next t → t.config = s.config) ∧
  (∀ s t : State, step s = .next t → t.config = s.config) ∧
  (∀ (image : List Byte) (h g : HostSession), hostLoad image h = .next g → g.core.config = h.core.config) ∧
  (∀ h g : HostSession, hostRun h = .next g → g.core.config = h.core.config)
end

