-- ==== Sys2Proof/Laws/Decode.lean ====
section
/-! SUPPORT. What the decoder's parts can answer. -/

namespace Sys2Proof

theorem mem_allMnemonics (m : Mnemonic) : m ∈ allMnemonics := by cases m <;> decide

/-- The default dispatch table gives no byte to two rows. -/
theorem defaultConfig_distinct : DistinctOpcodes defaultConfig := by decide

theorem opcodeOf_of_mnemonicOf {c : Config} {op : Byte} {m : Mnemonic} (h : mnemonicOf c op = some m) :
    opcodeOf c m = op := by
  simpa using List.find?_some h

theorem mnemonicOf_eq_none_iff (c : Config) (op : Byte) : mnemonicOf c op = none ↔ ∀ m, opcodeOf c m ≠ op := by
  simp [mnemonicOf, List.find?_eq_none, mem_allMnemonics]

theorem opcodeOf_injective {c : Config} (h : DistinctOpcodes c) {m n : Mnemonic} (e : opcodeOf c m = opcodeOf c n) :
    m = n :=
  List.inj_on_of_nodup_map h (mem_allMnemonics m) (mem_allMnemonics n) e

/-- In a dispatch table, a row is found by its own opcode. -/
theorem mnemonicOf_opcodeOf {c : Config} (h : DistinctOpcodes c) (m : Mnemonic) :
    mnemonicOf c (opcodeOf c m) = some m := by
  cases hm : mnemonicOf c (opcodeOf c m) with
  | none => exact absurd rfl ((mnemonicOf_eq_none_iff c _).mp hm m)
  | some n => rw [opcodeOf_injective h (opcodeOf_of_mnemonicOf hm)]

/-- The source's four opcode bytes stand for their rows in every configuration (30_encoding.md R76). -/
theorem mnemonicOf_fixed (c : Config) {m : Mnemonic} (h : m ∈ [Mnemonic.ldi, .prn, .add, .hlt]) :
    mnemonicOf c (opcodeOf c m) = some m := by
  simp only [List.mem_cons, List.not_mem_nil, or_false] at h
  rcases h with rfl | rfl | rfl | rfl <;> rfl

/-- The rules a configuration can hold for `stackFloor` are all of them: any function of the image length. -/
theorem stackFloorOf_table (c : Config) (f : Nat → Nat) {L : Nat} (h : L ≤ 256) :
    stackFloorOf { c with stackFloor := .table (Vector.ofFn fun i => f i.val) } L = f L := by
  have h' : L < 257 := by omega
  simp [stackFloorOf, h']

theorem oneOperand_eq_some {mk : Byte → Instr} {bs rest : List Byte} {i : Instr}
    (h : oneOperand mk bs = some (i, rest)) : ∃ a, bs = a :: rest ∧ i = mk a := by
  match bs, h with
  | a :: r, h =>
    simp [oneOperand] at h
    exact ⟨a, by simp [h.2], h.1.symm⟩

theorem twoOperands_eq_some {mk : Byte → Byte → Instr} {bs rest : List Byte} {i : Instr}
    (h : twoOperands mk bs = some (i, rest)) : ∃ a b, bs = a :: b :: rest ∧ i = mk a b := by
  match bs, h with
  | a :: b :: r, h =>
    simp [twoOperands] at h
    exact ⟨a, b, by simp [h.2], h.1.symm⟩

/-- Everything a successful decode says: the row is the first byte's, and the operands come from the bytes after it. -/
theorem decode_eq_ok {c : Config} {bs rest : List Byte} {i : Instr} (h : decode c bs = .ok (i, rest)) :
    ∃ op tail m, bs = op :: tail ∧ mnemonicOf c op = some m ∧ decodeOperands m tail = some (i, rest) := by
  match bs, h with
  | op :: tail, h =>
    simp only [decode] at h
    cases hm : mnemonicOf c op with
    | none => simp [hm] at h
    | some m =>
      cases hd : decodeOperands m tail with
      | none => simp [hm, hd] at h
      | some r =>
        simp [hm, hd] at h
        exact ⟨op, tail, m, rfl, hm, by rw [hd, h]⟩

end Sys2Proof
end

