-- ==== Sys2Proof/Laws/Memory.lean ====
section
/-! SUPPORT. The laws of memory: a read after a write, and that every memory operation keeps the canonical form. -/

namespace Sys2Proof.Machine

/-! ## Cells -/

theorem cellAt_of_not_mem {m : Memory} {a : Nat} (h : ∀ c ∈ m, c.1 ≠ a) : cellAt m a = 0 := by
  induction m with
  | nil => rfl
  | cons c m ih =>
    have hc : c.1 ≠ a := h c (by simp)
    simpa [cellAt, hc] using ih fun d hd => h d (by simp [hd])

theorem cellAt_filter_same (m : Memory) (a : Nat) : cellAt (m.filter fun c => c.1 != a) a = 0 :=
  cellAt_of_not_mem fun c hc => by simpa using (List.mem_filter.mp hc).2

theorem cellAt_filter_other (m : Memory) {a b : Nat} (h : b ≠ a) :
    cellAt (m.filter fun c => c.1 != a) b = cellAt m b := by
  induction m with
  | nil => rfl
  | cons c m ih =>
    by_cases hc : c.1 = a
    · have hb : c.1 ≠ b := fun e => h (e.symm.trans hc)
      simp [hc, cellAt, ih, h.symm]
    · simp [hc, cellAt, ih]

theorem cellAt_insertCell_same (m : Memory) (a : Nat) (v : Byte) (h : ∀ c ∈ m, c.1 ≠ a) :
    cellAt (insertCell a v m) a = v := by
  induction m with
  | nil => simp [insertCell, cellAt]
  | cons c m ih =>
    have hc : c.1 ≠ a := h c (by simp)
    simp only [insertCell]
    split
    · simp [cellAt]
    · simpa [cellAt, hc] using ih fun d hd => h d (by simp [hd])

theorem cellAt_insertCell_other (m : Memory) {a b : Nat} (v : Byte) (h : b ≠ a) :
    cellAt (insertCell a v m) b = cellAt m b := by
  induction m with
  | nil => simp [insertCell, cellAt, h.symm]
  | cons c m ih =>
    simp only [insertCell]
    split
    · simp [cellAt, h.symm]
    · simp [cellAt, ih]

/-- Setting a cell changes that cell and no other, in any memory. -/
theorem cellAt_setCell (m : Memory) (a b : Nat) (v : Byte) :
    cellAt (setCell m a v) b = if b = a then v else cellAt m b := by
  unfold setCell
  by_cases h : b = a
  · subst h
    by_cases hv : v = 0
    · rw [if_pos hv, if_pos rfl, hv, cellAt_filter_same]
    · rw [if_neg hv, if_pos rfl]
      exact cellAt_insertCell_same _ _ _ fun c hc => by simpa using (List.mem_filter.mp hc).2
  · by_cases hv : v = 0
    · rw [if_pos hv, if_neg h, cellAt_filter_other m h]
    · rw [if_neg hv, if_neg h, cellAt_insertCell_other _ v h, cellAt_filter_other m h]

/-! ## The two primitives -/

theorem memRead_eq_none_iff (m : Memory) (a : Nat) : memRead m a = none ↔ 256 ≤ a := by
  unfold memRead memSize; split <;> simp <;> omega

theorem memRead_of_lt (m : Memory) {a : Nat} (h : a < 256) : memRead m a = some (cellAt m a) := by
  simp [memRead, h]

theorem memRead_byte (m : Memory) (a : Byte) : memRead m a.toNat = some (cellAt m a.toNat) :=
  memRead_of_lt m a.isLt

theorem memWrite_of_lt (m : Memory) {a : Nat} (v : Byte) (h : a < 256) : memWrite m a v = some (setCell m a v) := by
  simp [memWrite, h]

theorem memWrite_byte (m : Memory) (a v : Byte) : memWrite m a.toNat v = some (setCell m a.toNat v) :=
  memWrite_of_lt m v a.isLt

theorem memWrite_eq_some {m m' : Memory} {a : Nat} {v : Byte} (h : memWrite m a v = some m') :
    a < 256 ∧ m' = setCell m a v := by
  unfold memWrite memSize at h
  split at h
  · exact ⟨by assumption, (Option.some.inj h).symm⟩
  · exact absurd h (by simp)

/-- A read after setting a cell inside memory. -/
theorem memRead_setCell (m : Memory) {a : Nat} (b : Nat) (v : Byte) (h : a < 256) :
    memRead (setCell m a v) b = if b = a then some v else memRead m b := by
  by_cases hb : b < 256
  · rw [memRead_of_lt _ hb, memRead_of_lt _ hb, cellAt_setCell]
    split <;> rfl
  · have hne : b ≠ a := by omega
    rw [if_neg hne, (memRead_eq_none_iff _ _).mpr (by omega), (memRead_eq_none_iff _ _).mpr (by omega)]

/-! ## The canonical form -/

theorem mem_insertCell {m : Memory} {a : Nat} {v : Byte} {c : Host.Cell} :
    c ∈ insertCell a v m ↔ c = (a, v) ∨ c ∈ m := by
  induction m with
  | nil => simp [insertCell]
  | cons d m ih =>
    simp only [insertCell]
    split
    · simp
    · simp only [List.mem_cons, ih]
      tauto

theorem insertCell_pairwise {m : Memory} {a : Nat} {v : Byte} (hm : m.Pairwise fun c d => c.1 < d.1)
    (ha : ∀ c ∈ m, c.1 ≠ a) : (insertCell a v m).Pairwise fun c d => c.1 < d.1 := by
  induction m with
  | nil => simp [insertCell]
  | cons c m ih =>
    have hc : c.1 ≠ a := ha c (by simp)
    obtain ⟨h1, h2⟩ := List.pairwise_cons.mp hm
    simp only [insertCell]
    split
    · rename_i hlt
      refine List.pairwise_cons.mpr ⟨fun d hd => ?_, hm⟩
      rcases List.mem_cons.mp hd with rfl | hd
      · exact hlt
      · exact Nat.lt_trans hlt (h1 d hd)
    · refine List.pairwise_cons.mpr ⟨fun d hd => ?_, ih h2 fun d hd => ha d (by simp [hd])⟩
      rcases mem_insertCell.mp hd with rfl | hd
      · simp only; omega
      · exact h1 d hd

/-- Setting a cell inside memory keeps the canonical form. -/
theorem setCell_wf {m : Memory} {a : Nat} (v : Byte) (hm : m.wf) (ha : a < 256) : (setCell m a v).wf := by
  obtain ⟨hp, hv⟩ := hm
  have hf : (m.filter fun c => c.1 != a).Pairwise fun c d => c.1 < d.1 := hp.filter _
  have hin : ∀ c ∈ m.filter fun c => c.1 != a, c.1 < memSize ∧ c.2 ≠ 0 :=
    fun c hc => hv c (List.mem_filter.mp hc).1
  unfold setCell
  by_cases h0 : v = 0
  · rw [if_pos h0]
    exact ⟨hf, hin⟩
  · rw [if_neg h0]
    refine ⟨insertCell_pairwise hf fun c hc => by simpa using (List.mem_filter.mp hc).2, fun c hc => ?_⟩
    rcases mem_insertCell.mp hc with rfl | hc
    · exact ⟨ha, h0⟩
    · exact hin c hc

theorem memWrite_wf {m m' : Memory} {a : Nat} {v : Byte} (hm : m.wf) (h : memWrite m a v = some m') : m'.wf := by
  obtain ⟨ha, rfl⟩ := memWrite_eq_some h
  exact setCell_wf v hm ha

theorem writeBytes_wf (vs : List Byte) {m : Memory} (a : Nat) (hm : m.wf) : (writeBytes m a vs).wf := by
  induction vs generalizing m a with
  | nil => exact hm
  | cons v vs ih =>
    refine ih (a + 1) ?_
    cases h : memWrite m a v with
    | none => exact hm
    | some m' => exact memWrite_wf hm h

/-- What a read finds after bytes were copied: the copied byte inside the copied range, else what was there. -/
theorem memRead_writeBytes (vs : List Byte) (m : Memory) (a b : Nat) :
    memRead (writeBytes m a vs) b =
      if a ≤ b ∧ b < a + vs.length ∧ b < 256 then vs[b - a]? else memRead m b := by
  induction vs generalizing m a with
  | nil => simp [writeBytes]; omega
  | cons v vs ih =>
    rw [writeBytes, ih]
    by_cases hb : b < 256
    · by_cases hba : b = a
      · subst hba
        simp [hb, memWrite_of_lt m v hb, memRead_setCell m b v hb]
      · have hread : memRead ((memWrite m a v).getD m) b = memRead m b := by
          by_cases ha : a < 256
          · simp [memWrite_of_lt m v ha, memRead_setCell m b v ha, hba]
          · simp [memWrite, ha]
        rw [hread]
        by_cases hr : a + 1 ≤ b ∧ b < a + 1 + vs.length ∧ b < 256
        · have e : b - a = (b - (a + 1)) + 1 := by omega
          rw [if_pos hr, if_pos ⟨by omega, by simp only [List.length_cons]; omega, hb⟩, e]
          simp
        · rw [if_neg hr, if_neg (by simp only [List.length_cons]; omega)]
    · have h1 := (memRead_eq_none_iff ((memWrite m a v).getD m) b).mpr (by omega)
      have h2 := (memRead_eq_none_iff m b).mpr (by omega)
      simp [hb, h1, h2]

theorem reset_mem_wf : State.reset.mem.wf := by decide

end Sys2Proof.Machine
end

