-- ==== Sys2Proof/Laws/State.lean ====
section
/-! SUPPORT. What each update of the state leaves in each field, so that no later proof unfolds an update. -/

namespace Sys2Proof.Machine

@[simp] theorem writeReg_mem (s : State) (r : RegIdx) (v : Byte) :
    (writeReg s r v).mem = s.mem := rfl
@[simp] theorem writeReg_x (s : State) (r : RegIdx) (v : Byte) :
    (writeReg s r v).x = s.x.set r v := rfl
@[simp] theorem writeReg_pc (s : State) (r : RegIdx) (v : Byte) :
    (writeReg s r v).pc = s.pc := rfl
@[simp] theorem writeReg_flags (s : State) (r : RegIdx) (v : Byte) :
    (writeReg s r v).flags = s.flags := rfl
@[simp] theorem writeReg_run (s : State) (r : RegIdx) (v : Byte) :
    (writeReg s r v).run = s.run := rfl
@[simp] theorem writeReg_fault (s : State) (r : RegIdx) (v : Byte) :
    (writeReg s r v).fault = s.fault := rfl
@[simp] theorem writeReg_imageLen (s : State) (r : RegIdx) (v : Byte) :
    (writeReg s r v).imageLen = s.imageLen := rfl
@[simp] theorem writeReg_out (s : State) (r : RegIdx) (v : Byte) :
    (writeReg s r v).out = s.out := rfl
@[simp] theorem writeReg_config (s : State) (r : RegIdx) (v : Byte) :
    (writeReg s r v).config = s.config := rfl

@[simp] theorem setMem_mem (s : State) (m : Memory) :
    (setMem s m).mem = m := rfl
@[simp] theorem setMem_x (s : State) (m : Memory) :
    (setMem s m).x = s.x := rfl
@[simp] theorem setMem_pc (s : State) (m : Memory) :
    (setMem s m).pc = s.pc := rfl
@[simp] theorem setMem_flags (s : State) (m : Memory) :
    (setMem s m).flags = s.flags := rfl
@[simp] theorem setMem_run (s : State) (m : Memory) :
    (setMem s m).run = s.run := rfl
@[simp] theorem setMem_fault (s : State) (m : Memory) :
    (setMem s m).fault = s.fault := rfl
@[simp] theorem setMem_imageLen (s : State) (m : Memory) :
    (setMem s m).imageLen = s.imageLen := rfl
@[simp] theorem setMem_out (s : State) (m : Memory) :
    (setMem s m).out = s.out := rfl
@[simp] theorem setMem_config (s : State) (m : Memory) :
    (setMem s m).config = s.config := rfl

@[simp] theorem setPc_mem (s : State) (t : Nat) :
    (setPc s t).mem = s.mem := rfl
@[simp] theorem setPc_x (s : State) (t : Nat) :
    (setPc s t).x = s.x := rfl
@[simp] theorem setPc_pc (s : State) (t : Nat) :
    (setPc s t).pc = t := rfl
@[simp] theorem setPc_flags (s : State) (t : Nat) :
    (setPc s t).flags = s.flags := rfl
@[simp] theorem setPc_run (s : State) (t : Nat) :
    (setPc s t).run = s.run := rfl
@[simp] theorem setPc_fault (s : State) (t : Nat) :
    (setPc s t).fault = s.fault := rfl
@[simp] theorem setPc_imageLen (s : State) (t : Nat) :
    (setPc s t).imageLen = s.imageLen := rfl
@[simp] theorem setPc_out (s : State) (t : Nat) :
    (setPc s t).out = s.out := rfl
@[simp] theorem setPc_config (s : State) (t : Nat) :
    (setPc s t).config = s.config := rfl

@[simp] theorem advance_mem (m : Mnemonic) (s : State) :
    (advance m s).mem = s.mem := rfl
@[simp] theorem advance_x (m : Mnemonic) (s : State) :
    (advance m s).x = s.x := rfl
@[simp] theorem advance_pc (m : Mnemonic) (s : State) :
    (advance m s).pc = s.pc + lengthOf m := rfl
@[simp] theorem advance_flags (m : Mnemonic) (s : State) :
    (advance m s).flags = s.flags := rfl
@[simp] theorem advance_run (m : Mnemonic) (s : State) :
    (advance m s).run = s.run := rfl
@[simp] theorem advance_fault (m : Mnemonic) (s : State) :
    (advance m s).fault = s.fault := rfl
@[simp] theorem advance_imageLen (m : Mnemonic) (s : State) :
    (advance m s).imageLen = s.imageLen := rfl
@[simp] theorem advance_out (m : Mnemonic) (s : State) :
    (advance m s).out = s.out := rfl
@[simp] theorem advance_config (m : Mnemonic) (s : State) :
    (advance m s).config = s.config := rfl

@[simp] theorem emit_mem (s : State) (v : Byte) :
    (emit s v).mem = s.mem := rfl
@[simp] theorem emit_x (s : State) (v : Byte) :
    (emit s v).x = s.x := rfl
@[simp] theorem emit_pc (s : State) (v : Byte) :
    (emit s v).pc = s.pc := rfl
@[simp] theorem emit_flags (s : State) (v : Byte) :
    (emit s v).flags = s.flags := rfl
@[simp] theorem emit_run (s : State) (v : Byte) :
    (emit s v).run = s.run := rfl
@[simp] theorem emit_fault (s : State) (v : Byte) :
    (emit s v).fault = s.fault := rfl
@[simp] theorem emit_imageLen (s : State) (v : Byte) :
    (emit s v).imageLen = s.imageLen := rfl
@[simp] theorem emit_out (s : State) (v : Byte) :
    (emit s v).out = s.out ++ [v] := rfl
@[simp] theorem emit_config (s : State) (v : Byte) :
    (emit s v).config = s.config := rfl

@[simp] theorem setHalted_mem (s : State) :
    (setHalted s).mem = s.mem := rfl
@[simp] theorem setHalted_x (s : State) :
    (setHalted s).x = s.x := rfl
@[simp] theorem setHalted_pc (s : State) :
    (setHalted s).pc = s.pc := rfl
@[simp] theorem setHalted_flags (s : State) :
    (setHalted s).flags = s.flags := rfl
@[simp] theorem setHalted_run (s : State) :
    (setHalted s).run = .halted := rfl
@[simp] theorem setHalted_fault (s : State) :
    (setHalted s).fault = s.fault := rfl
@[simp] theorem setHalted_imageLen (s : State) :
    (setHalted s).imageLen = s.imageLen := rfl
@[simp] theorem setHalted_out (s : State) :
    (setHalted s).out = s.out := rfl
@[simp] theorem setHalted_config (s : State) :
    (setHalted s).config = s.config := rfl

@[simp] theorem setFlags_mem (s : State) (f : Flags) :
    (setFlags s f).mem = s.mem := rfl
@[simp] theorem setFlags_x (s : State) (f : Flags) :
    (setFlags s f).x = s.x := rfl
@[simp] theorem setFlags_pc (s : State) (f : Flags) :
    (setFlags s f).pc = s.pc := rfl
@[simp] theorem setFlags_flags (s : State) (f : Flags) :
    (setFlags s f).flags = f := rfl
@[simp] theorem setFlags_run (s : State) (f : Flags) :
    (setFlags s f).run = s.run := rfl
@[simp] theorem setFlags_fault (s : State) (f : Flags) :
    (setFlags s f).fault = s.fault := rfl
@[simp] theorem setFlags_imageLen (s : State) (f : Flags) :
    (setFlags s f).imageLen = s.imageLen := rfl
@[simp] theorem setFlags_out (s : State) (f : Flags) :
    (setFlags s f).out = s.out := rfl
@[simp] theorem setFlags_config (s : State) (f : Flags) :
    (setFlags s f).config = s.config := rfl

@[simp] theorem decSp_mem (s : State) :
    (decSp s).mem = s.mem := rfl
@[simp] theorem decSp_x (s : State) :
    (decSp s).x = s.x.set spIdx (sp s - 1) := rfl
@[simp] theorem decSp_pc (s : State) :
    (decSp s).pc = s.pc := rfl
@[simp] theorem decSp_flags (s : State) :
    (decSp s).flags = s.flags := rfl
@[simp] theorem decSp_run (s : State) :
    (decSp s).run = s.run := rfl
@[simp] theorem decSp_fault (s : State) :
    (decSp s).fault = s.fault := rfl
@[simp] theorem decSp_imageLen (s : State) :
    (decSp s).imageLen = s.imageLen := rfl
@[simp] theorem decSp_out (s : State) :
    (decSp s).out = s.out := rfl
@[simp] theorem decSp_config (s : State) :
    (decSp s).config = s.config := rfl

@[simp] theorem incSp_mem (s : State) :
    (incSp s).mem = s.mem := rfl
@[simp] theorem incSp_x (s : State) :
    (incSp s).x = s.x.set spIdx (sp s + 1) := rfl
@[simp] theorem incSp_pc (s : State) :
    (incSp s).pc = s.pc := rfl
@[simp] theorem incSp_flags (s : State) :
    (incSp s).flags = s.flags := rfl
@[simp] theorem incSp_run (s : State) :
    (incSp s).run = s.run := rfl
@[simp] theorem incSp_fault (s : State) :
    (incSp s).fault = s.fault := rfl
@[simp] theorem incSp_imageLen (s : State) :
    (incSp s).imageLen = s.imageLen := rfl
@[simp] theorem incSp_out (s : State) :
    (incSp s).out = s.out := rfl
@[simp] theorem incSp_config (s : State) :
    (incSp s).config = s.config := rfl

@[simp] theorem raiseFault_mem (k : FaultKind) (op : Option Byte) (s : State) :
    (raiseFault k op s).mem = s.mem := rfl
@[simp] theorem raiseFault_x (k : FaultKind) (op : Option Byte) (s : State) :
    (raiseFault k op s).x = s.x := rfl
@[simp] theorem raiseFault_pc (k : FaultKind) (op : Option Byte) (s : State) :
    (raiseFault k op s).pc = s.pc := rfl
@[simp] theorem raiseFault_flags (k : FaultKind) (op : Option Byte) (s : State) :
    (raiseFault k op s).flags = s.flags := rfl
@[simp] theorem raiseFault_run (k : FaultKind) (op : Option Byte) (s : State) :
    (raiseFault k op s).run = .faulted := rfl
@[simp] theorem raiseFault_fault (k : FaultKind) (op : Option Byte) (s : State) :
    (raiseFault k op s).fault = some ⟨k, s.pc, op⟩ := rfl
@[simp] theorem raiseFault_imageLen (k : FaultKind) (op : Option Byte) (s : State) :
    (raiseFault k op s).imageLen = s.imageLen := rfl
@[simp] theorem raiseFault_out (k : FaultKind) (op : Option Byte) (s : State) :
    (raiseFault k op s).out = s.out := rfl
@[simp] theorem raiseFault_config (k : FaultKind) (op : Option Byte) (s : State) :
    (raiseFault k op s).config = s.config := rfl

/-! ## Reading a register after an update -/

@[simp] theorem readReg_writeReg_same (s : State) (r : RegIdx) (v : Byte) : readReg (writeReg s r v) r = v := by
  simp [readReg]

theorem readReg_writeReg_other (s : State) {r k : RegIdx} (v : Byte) (h : k ≠ r) :
    readReg (writeReg s r v) k = readReg s k := by
  have h' : r.val ≠ k.val := fun e => h (Fin.ext e.symm)
  simp [readReg, Vector.getElem_set_ne _ _ h']

/-- One lemma for both cases. -/
theorem readReg_writeReg (s : State) (r k : RegIdx) (v : Byte) :
    readReg (writeReg s r v) k = if k = r then v else readReg s k := by
  by_cases h : k = r
  · subst h; simp
  · simp [h, readReg_writeReg_other s v h]

@[simp] theorem readReg_setMem (s : State) (m : Memory) (j : RegIdx) :
    readReg (setMem s m) j = readReg s j := rfl

@[simp] theorem readReg_setPc (s : State) (t : Nat) (j : RegIdx) :
    readReg (setPc s t) j = readReg s j := rfl

@[simp] theorem readReg_advance (m : Mnemonic) (s : State) (j : RegIdx) :
    readReg (advance m s) j = readReg s j := rfl

@[simp] theorem readReg_emit (s : State) (v : Byte) (j : RegIdx) :
    readReg (emit s v) j = readReg s j := rfl

@[simp] theorem readReg_setHalted (s : State) (j : RegIdx) :
    readReg (setHalted s) j = readReg s j := rfl

@[simp] theorem readReg_setFlags (s : State) (f : Flags) (j : RegIdx) :
    readReg (setFlags s f) j = readReg s j := rfl

@[simp] theorem readReg_raiseFault (k : FaultKind) (op : Option Byte) (s : State) (j : RegIdx) :
    readReg (raiseFault k op s) j = readReg s j := rfl

@[simp] theorem sp_setMem (s : State) (m : Memory) : sp (setMem s m) = sp s := rfl

@[simp] theorem sp_setPc (s : State) (t : Nat) : sp (setPc s t) = sp s := rfl

@[simp] theorem sp_advance (m : Mnemonic) (s : State) : sp (advance m s) = sp s := rfl

@[simp] theorem sp_emit (s : State) (v : Byte) : sp (emit s v) = sp s := rfl

@[simp] theorem sp_setHalted (s : State) : sp (setHalted s) = sp s := rfl

@[simp] theorem sp_setFlags (s : State) (f : Flags) : sp (setFlags s f) = sp s := rfl

@[simp] theorem sp_raiseFault (k : FaultKind) (op : Option Byte) (s : State) : sp (raiseFault k op s) = sp s := rfl

@[simp] theorem sp_decSp (s : State) : sp (decSp s) = sp s - 1 := readReg_writeReg_same s spIdx _

@[simp] theorem sp_incSp (s : State) : sp (incSp s) = sp s + 1 := readReg_writeReg_same s spIdx _

theorem readReg_decSp (s : State) (k : RegIdx) :
    readReg (decSp s) k = if k = spIdx then sp s - 1 else readReg s k := readReg_writeReg s spIdx k _

theorem readReg_incSp (s : State) (k : RegIdx) :
    readReg (incSp s) k = if k = spIdx then sp s + 1 else readReg s k := readReg_writeReg s spIdx k _

/-- Two states that agree in every field are one state; registers are compared by reading them. -/
theorem state_ext {s t : State} (hm : s.mem = t.mem) (hx : ∀ k, readReg s k = readReg t k) (hp : s.pc = t.pc)
    (hf : s.flags = t.flags) (hr : s.run = t.run) (hq : s.fault = t.fault) (hl : s.imageLen = t.imageLen)
    (ho : s.out = t.out) (hc : s.config = t.config) : s = t := by
  have hx' : s.x = t.x := Vector.ext fun i hi => hx ⟨i, hi⟩
  cases s; cases t; simp_all

end Sys2Proof.Machine
end

