-- ==== Sys2Proof/Laws/Ops.lean ====
section
/-! SUPPORT. One lemma for each shared operation that says everything it can do; proofs cite these and do not unfold. -/

namespace Sys2Proof.Machine

/-! ## Operands -/

theorem regIndex_regByte (r : RegIdx) : regIndex (regByte r) = .ok r := by
  revert r; decide

/-- A register-index byte either names a register or raises OutOfBounds. -/
theorem regIndex_cases (a : Byte) :
    (∃ r : RegIdx, a = regByte r ∧ regIndex a = .ok r) ∨ (8 ≤ a.toNat ∧ regIndex a = .error .outOfBounds) := by
  by_cases h : a.toNat < 8
  · refine .inl ⟨⟨a.toNat, h⟩, ?_, by simp [regIndex, h]⟩
    simp [regByte]
  · exact .inr ⟨by omega, by simp [regIndex, h]⟩

theorem regIndex_of_ge {a : Byte} (h : 8 ≤ a.toNat) : regIndex a = .error .outOfBounds := by
  have h' : ¬ a.toNat < 8 := by omega
  simp [regIndex, h']

theorem namesRegister_regByte (r : RegIdx) : namesRegister (regByte r) = true := by
  revert r; decide

@[simp] theorem withReg_regByte (r : RegIdx) (rule : RegIdx → RuleResult) : withReg (regByte r) rule = rule r := by
  simp [withReg, regIndex_regByte]

@[simp] theorem withRegs_regByte (ra rb : RegIdx) (rule : RegIdx → RegIdx → RuleResult) :
    withRegs (regByte ra) (regByte rb) rule = rule ra rb := by
  simp [withRegs]

theorem withReg_of_ge {a : Byte} (h : 8 ≤ a.toNat) (rule : RegIdx → RuleResult) :
    withReg a rule = .error .outOfBounds := by
  simp [withReg, regIndex_of_ge h]

/-- A rule over two registers raises OutOfBounds when either byte names none. -/
theorem withRegs_of_ge {a b : Byte} (h : 8 ≤ a.toNat ∨ 8 ≤ b.toNat) (rule : RegIdx → RegIdx → RuleResult) :
    withRegs a b rule = .error .outOfBounds := by
  unfold withRegs
  rcases regIndex_cases a with ⟨ra, rfl, _⟩ | ⟨ha, _⟩
  · have hb : 8 ≤ b.toNat := by
      rcases h with h | h
      · have := ra.isLt
        simp [regByte] at h
        omega
      · exact h
    simp [withReg_of_ge hb]
  · exact withReg_of_ge ha _

/-- What a rule over one register gives, inverted. -/
theorem withReg_eq_ok {a : Byte} {rule : RegIdx → RuleResult} {t : State} (h : withReg a rule = .ok t) :
    ∃ r : RegIdx, a = regByte r ∧ rule r = .ok t := by
  rcases regIndex_cases a with ⟨r, rfl, _⟩ | ⟨ha, _⟩
  · exact ⟨r, rfl, by simpa using h⟩
  · simp [withReg_of_ge ha] at h

/-- What a rule over two registers gives, inverted. -/
theorem withRegs_eq_ok {a b : Byte} {rule : RegIdx → RegIdx → RuleResult} {t : State}
    (h : withRegs a b rule = .ok t) : ∃ ra rb : RegIdx, a = regByte ra ∧ b = regByte rb ∧ rule ra rb = .ok t := by
  obtain ⟨ra, ha, h1⟩ := withReg_eq_ok h
  obtain ⟨rb, hb, h2⟩ := withReg_eq_ok h1
  exact ⟨ra, rb, ha, hb, h2⟩

/-! ## Finishing an instruction -/

@[simp] theorem finish_ok (m : Mnemonic) (s t : State) : finish m s (.ok t) = .next t := rfl

@[simp] theorem finish_error (m : Mnemonic) (s : State) (k : FaultKind) :
    finish m s (.error k) = .next (raiseFault k (some (opcodeOf s.config m)) s) := rfl

/-- Everything `finish` can answer: the rule's state, or the fault taken in the state the instruction began in. -/
theorem finish_eq_next {m : Mnemonic} {s t : State} {r : RuleResult} (h : finish m s r = .next t) :
    r = .ok t ∨ ∃ k, r = .error k ∧ t = raiseFault k (some (opcodeOf s.config m)) s := by
  cases r with
  | ok u => exact .inl (by simpa using h)
  | error k => exact .inr ⟨k, rfl, by simpa using h.symm⟩

/-! ## The stack checks -/

theorem checkPush_ok_iff (c : Config) (L : Nat) (v : Byte) :
    checkPush c L v = .ok () ↔ stackFloorOf c L < v.toNat ∧ v.toNat ≤ c.stackTop := by
  unfold checkPush
  repeat' split
  all_goals simp; try omega

theorem checkPop_ok_iff (c : Config) (L : Nat) (v : Byte) :
    checkPop c L v = .ok () ↔ stackFloorOf c L ≤ v.toNat ∧ v.toNat < c.stackTop := by
  unfold checkPop
  repeat' split
  all_goals simp; try omega

/-- Everything CheckPush can raise (42_stack.md R143). -/
theorem checkPush_error_iff (c : Config) (L : Nat) (v : Byte) (k : FaultKind) :
    checkPush c L v = .error k ↔
      (v.toNat = 0 ∧ k = .stackUnderflow) ∨ (v.toNat ≠ 0 ∧ v.toNat ≤ stackFloorOf c L ∧ k = .stackOverflow) ∨
        (stackFloorOf c L < v.toNat ∧ c.stackTop < v.toNat ∧ k = .stackUnderflow) := by
  unfold checkPush
  repeat' split
  all_goals simp only [Except.error.injEq, reduceCtorEq, false_iff, eq_comm (b := k)]
  · constructor
    · intro h; exact .inl ⟨by assumption, h⟩
    · rintro (⟨_, h⟩ | ⟨h, _⟩ | ⟨_, _, h⟩) <;> first | exact h | omega
  · constructor
    · intro h; exact .inr (.inl ⟨by assumption, by omega, h⟩)
    · rintro (⟨_, h⟩ | ⟨_, _, h⟩ | ⟨_, _, h⟩) <;> first | exact h | omega
  · constructor
    · intro h; exact .inr (.inr ⟨by omega, by omega, h⟩)
    · rintro (⟨_, h⟩ | ⟨_, _, h⟩ | ⟨_, _, h⟩) <;> first | exact h | omega
  · omega

/-- Everything CheckPop can raise (42_stack.md R143). -/
theorem checkPop_error_iff (c : Config) (L : Nat) (v : Byte) (k : FaultKind) :
    checkPop c L v = .error k ↔
      (c.stackTop ≤ v.toNat ∧ k = .stackUnderflow) ∨
        (v.toNat < c.stackTop ∧ v.toNat < stackFloorOf c L ∧ k = .stackOverflow) := by
  unfold checkPop
  repeat' split
  all_goals simp only [Except.error.injEq, reduceCtorEq, false_iff, eq_comm (b := k)]
  · constructor
    · intro h; exact .inl ⟨by assumption, h⟩
    · rintro (⟨_, h⟩ | ⟨_, _, h⟩) <;> first | exact h | omega
  · constructor
    · intro h; exact .inr ⟨by omega, by assumption, h⟩
    · rintro (⟨_, h⟩ | ⟨_, _, h⟩) <;> first | exact h | omega
  · omega

/-! ## The stack accesses -/

/-- A store at the stack pointer always succeeds (60_exceptions.md R202). -/
@[simp] theorem storeAtSp_eq (s : State) (v : Byte) :
    storeAtSp s v = .ok (setMem s (setCell s.mem (sp s).toNat v)) := by
  simp [storeAtSp, memWrite_byte]

/-- A load at the stack pointer always succeeds (60_exceptions.md R202). -/
@[simp] theorem loadAtSp_eq (s : State) : loadAtSp s = .ok (cellAt s.mem (sp s).toNat) := by
  simp [loadAtSp, memRead_byte]

theorem beginPush_of_ok {s : State} (h : PushAllowed s) :
    beginPush s = .ok (decSp s) := by
  simp [beginPush, (checkPush_ok_iff _ _ _).mpr h]

theorem beginPush_eq_ok {s t : State} (h : beginPush s = .ok t) :
    PushAllowed s ∧ t = decSp s := by
  unfold beginPush at h
  split at h
  · exact ⟨(checkPush_ok_iff _ _ _).mp (by assumption), (Except.ok.inj h).symm⟩
  · simp at h

theorem beginPush_error {s : State} {k : FaultKind} (h : checkPush s.config s.imageLen (sp s) = .error k) :
    beginPush s = .error k := by
  simp [beginPush, h]

theorem popByte_of_ok {s : State} (h : PopAllowed s) :
    popByte s = .ok (cellAt s.mem (sp s).toNat) := by
  simp [popByte, (checkPop_ok_iff _ _ _).mpr h]

theorem popByte_eq_ok {s : State} {v : Byte} (h : popByte s = .ok v) :
    PopAllowed s ∧ v = cellAt s.mem (sp s).toNat := by
  unfold popByte at h
  split at h
  · exact ⟨(checkPop_ok_iff _ _ _).mp (by assumption), by simpa using h.symm⟩
  · simp at h

theorem popByte_error {s : State} {k : FaultKind} (h : checkPop s.config s.imageLen (sp s) = .error k) :
    popByte s = .error k := by
  simp [popByte, h]

/-- The address a push stores to is one below the stack pointer, where the check has passed. -/
theorem sp_sub_one_toNat {v : Byte} (h : 1 ≤ v.toNat) : (v - 1).toNat = v.toNat - 1 := by
  have := v.isLt
  rw [BitVec.toNat_sub]
  simp
  omega

theorem returnByte_cases (ret : Nat) :
    (ret < 256 ∧ returnByte ret = .ok (BitVec.ofNat 8 ret)) ∨ (256 ≤ ret ∧ returnByte ret = .error .outOfBounds) := by
  by_cases h : ret < 256
  · exact .inl ⟨h, by simp [returnByte, h]⟩
  · exact .inr ⟨by omega, by simp [returnByte, h]⟩

/-! ## The ALU -/

theorem writeAlu_eq_ok {m : Mnemonic} {r : RegIdx} {s t : State} {e : Except FaultKind Byte}
    (h : writeAlu m r s e = .ok t) : ∃ v, e = .ok v ∧ t = advance m (writeReg s r v) := by
  cases e with
  | ok v => exact ⟨v, rfl, (Except.ok.inj h).symm⟩
  | error k => simp [writeAlu] at h

/-- The ALU faults only on a zero divisor. -/
theorem alu_error_iff (op : AluOp) (u v : Byte) (k : FaultKind) :
    alu op u v = .error k ↔
      v = 0 ∧ (op = .div ∧ k = .divisionByZero ∨ op = .mod ∧ k = .moduloByZero) := by
  cases op <;> simp only [alu]
  case div | mod =>
    split
    · simp [*, eq_comm (b := k)]
    · exact ⟨fun h => by simp at h, fun h => absurd h.1 ‹_›⟩
  all_goals simp

/-- Everything the binary form can answer with a next state that took no fault. -/
theorem aluBinary_regs (op : AluOp) (m : Mnemonic) (ra rb : RegIdx) (s : State) :
    aluBinary op m (regByte ra) (regByte rb) s =
      finish m s (writeAlu m ra s (alu op (readReg s ra) (readReg s rb))) := by
  simp [aluBinary]

end Sys2Proof.Machine
end

