-- ==== Sys2Proof/Laws/Exec.lean ====
section
/-! SUPPORT. Everything an instruction can answer, said once: it completes with the effect of its rule, or it takes a fault
in the state it began in. Claims over all instructions split on this and unfold nothing. -/

namespace Sys2Proof.Machine

/-- The instruction begun in `s` completes in `t`. -/
def Completes (i : Instr) (s t : State) : Prop :=
  match i with
  | .ldi a imm => ∃ ra, a = regByte ra ∧ t = advance .ldi (writeReg s ra imm)
  | .prn a => ∃ ra, a = regByte ra ∧ t = advance .prn (emit s (readReg s ra))
  | .add a b => ∃ ra rb v, a = regByte ra ∧ b = regByte rb ∧ alu .add (readReg s ra) (readReg s rb) = .ok v ∧
      t = advance .add (writeReg s ra v)
  | .sub a b => ∃ ra rb v, a = regByte ra ∧ b = regByte rb ∧ alu .sub (readReg s ra) (readReg s rb) = .ok v ∧
      t = advance .sub (writeReg s ra v)
  | .mul a b => ∃ ra rb v, a = regByte ra ∧ b = regByte rb ∧ alu .mul (readReg s ra) (readReg s rb) = .ok v ∧
      t = advance .mul (writeReg s ra v)
  | .div a b => ∃ ra rb v, a = regByte ra ∧ b = regByte rb ∧ alu .div (readReg s ra) (readReg s rb) = .ok v ∧
      t = advance .div (writeReg s ra v)
  | .mod a b => ∃ ra rb v, a = regByte ra ∧ b = regByte rb ∧ alu .mod (readReg s ra) (readReg s rb) = .ok v ∧
      t = advance .mod (writeReg s ra v)
  | .and a b => ∃ ra rb v, a = regByte ra ∧ b = regByte rb ∧ alu .and (readReg s ra) (readReg s rb) = .ok v ∧
      t = advance .and (writeReg s ra v)
  | .or a b => ∃ ra rb v, a = regByte ra ∧ b = regByte rb ∧ alu .or (readReg s ra) (readReg s rb) = .ok v ∧
      t = advance .or (writeReg s ra v)
  | .xor a b => ∃ ra rb v, a = regByte ra ∧ b = regByte rb ∧ alu .xor (readReg s ra) (readReg s rb) = .ok v ∧
      t = advance .xor (writeReg s ra v)
  | .not a => ∃ ra, a = regByte ra ∧ t = advance .not (writeReg s ra (~~~(readReg s ra)))
  | .shl a b => ∃ ra rb v, a = regByte ra ∧ b = regByte rb ∧ alu .shl (readReg s ra) (readReg s rb) = .ok v ∧
      t = advance .shl (writeReg s ra v)
  | .shr a b => ∃ ra rb v, a = regByte ra ∧ b = regByte rb ∧ alu .shr (readReg s ra) (readReg s rb) = .ok v ∧
      t = advance .shr (writeReg s ra v)
  | .push a => ∃ ra, a = regByte ra ∧ PushAllowed s ∧
      t = advance .push (setMem (decSp s) (setCell s.mem (sp s - 1).toNat (readReg (decSp s) ra)))
  | .pop a => ∃ ra, a = regByte ra ∧ PopAllowed s ∧
      t = advance .pop (incSp (writeReg s ra (cellAt s.mem (sp s).toNat)))
  | .call a => ∃ ra, a = regByte ra ∧ s.pc + 2 < 256 ∧ PushAllowed s ∧
      t = setPc (setMem (decSp s) (setCell s.mem (sp s - 1).toNat (BitVec.ofNat 8 (s.pc + 2))))
        (readReg (decSp s) ra).toNat
  | .ret => PopAllowed s ∧
      t = incSp (setPc s (cellAt s.mem (sp s).toNat).toNat)
  | .cmp a b => ∃ ra rb, a = regByte ra ∧ b = regByte rb ∧
      t = advance .cmp (setFlags s (compareFlags (readReg s ra) (readReg s rb)))
  | .jmp a => ∃ ra, a = regByte ra ∧ t = setPc s (readReg s ra).toNat
  | .jeq a => ∃ ra, a = regByte ra ∧ t = if s.flags.eq then setPc s (readReg s ra).toNat else advance .jeq s
  | .jne a => ∃ ra, a = regByte ra ∧ t = if s.flags.eq then advance .jne s else setPc s (readReg s ra).toNat
  | .hlt => t = advance .hlt (setHalted s)

/-- The fault an instruction takes is recorded with its row's opcode. -/
def TakesFault (i : Instr) (s t : State) : Prop :=
  ∃ k, t = raiseFault k (some (opcodeOf s.config i.mnemonic)) s

theorem finish_total (m : Mnemonic) (s : State) (r : RuleResult) : ∃ t, finish m s r = .next t := by
  cases r <;> simp

theorem aluBinary_eq_next {op : AluOp} {m : Mnemonic} {a b : Byte} {s t : State}
    (h : aluBinary op m a b s = .next t) :
    (∃ ra rb v, a = regByte ra ∧ b = regByte rb ∧ alu op (readReg s ra) (readReg s rb) = .ok v ∧
      t = advance m (writeReg s ra v)) ∨ ∃ k, t = raiseFault k (some (opcodeOf s.config m)) s := by
  rcases finish_eq_next h with h | ⟨k, -, h⟩
  · obtain ⟨ra, rb, ha, hb, h1⟩ := withRegs_eq_ok h
    obtain ⟨v, hv, ht⟩ := writeAlu_eq_ok h1
    exact .inl ⟨ra, rb, v, ha, hb, hv, ht⟩
  · exact .inr ⟨k, h⟩

/-- An instruction of one register operand: it completes by its rule, or takes a fault. -/
theorem finish_withReg {m : Mnemonic} {a : Byte} {rule : RegIdx → RuleResult} {s t : State}
    (h : finish m s (withReg a rule) = .next t) :
    (∃ ra, a = regByte ra ∧ rule ra = .ok t) ∨ ∃ k, t = raiseFault k (some (opcodeOf s.config m)) s := by
  rcases finish_eq_next h with h | ⟨k, -, h⟩
  · exact .inl (withReg_eq_ok h)
  · exact .inr ⟨k, h⟩

theorem execPush_eq_next {a : Byte} {s t : State} (h : execPush a s = .next t) :
    Completes (.push a) s t ∨ TakesFault (.push a) s t := by
  refine (finish_withReg h).imp_left fun ⟨ra, ha, h1⟩ => ⟨ra, ha, ?_⟩
  cases hb : beginPush s with
  | error k => simp [hb] at h1
  | ok u =>
    obtain ⟨hok, rfl⟩ := beginPush_eq_ok hb
    exact ⟨hok, by simpa [hb] using h1.symm⟩

theorem execPop_eq_next {a : Byte} {s t : State} (h : execPop a s = .next t) :
    Completes (.pop a) s t ∨ TakesFault (.pop a) s t := by
  refine (finish_withReg h).imp_left fun ⟨ra, ha, h1⟩ => ⟨ra, ha, ?_⟩
  cases hb : popByte s with
  | error k => simp [hb] at h1
  | ok v =>
    obtain ⟨hok, rfl⟩ := popByte_eq_ok hb
    exact ⟨hok, by simpa [hb] using h1.symm⟩

theorem execCall_eq_next {a : Byte} {s t : State} (h : execCall a s = .next t) :
    Completes (.call a) s t ∨ TakesFault (.call a) s t := by
  refine (finish_withReg h).imp_left fun ⟨ra, ha, h1⟩ => ⟨ra, ha, ?_⟩
  change (match returnByte (s.pc + 2) with | .error k => _ | .ok ret => _) = _ at h1
  rcases returnByte_cases (s.pc + 2) with ⟨hr, er⟩ | ⟨hr, er⟩
  · cases hb : beginPush s with
    | error k => simp [er, hb] at h1
    | ok u =>
      obtain ⟨hok, rfl⟩ := beginPush_eq_ok hb
      exact ⟨hr, hok, by simpa [er, hb] using h1.symm⟩
  · simp [er] at h1

theorem execRet_eq_next {s t : State} (h : execRet s = .next t) : Completes .ret s t ∨ TakesFault .ret s t := by
  rcases finish_eq_next h with h | ⟨k, -, h⟩
  · cases hb : popByte s with
    | error k => simp [hb] at h
    | ok v =>
      obtain ⟨hok, rfl⟩ := popByte_eq_ok hb
      exact .inl ⟨hok, by simpa [hb] using h.symm⟩
  · exact .inr ⟨k, h⟩

theorem jumpIf_eq_next {taken : Bool} {m : Mnemonic} {a : Byte} {s t : State} (h : jumpIf taken m a s = .next t) :
    (∃ ra, a = regByte ra ∧ t = if taken then setPc s (readReg s ra).toNat else advance m s) ∨
      ∃ k, t = raiseFault k (some (opcodeOf s.config m)) s :=
  (finish_withReg h).imp_left fun ⟨ra, ha, h1⟩ => ⟨ra, ha, (Except.ok.inj h1).symm⟩

/-- Everything `exec` can answer. -/
theorem exec_eq_next {i : Instr} {s t : State} (h : exec i s = .next t) : Completes i s t ∨ TakesFault i s t := by
  cases i with
  | ldi a imm => exact (finish_withReg h).imp_left fun ⟨ra, ha, h1⟩ => ⟨ra, ha, (Except.ok.inj h1).symm⟩
  | prn a => exact (finish_withReg h).imp_left fun ⟨ra, ha, h1⟩ => ⟨ra, ha, (Except.ok.inj h1).symm⟩
  | not a => exact (finish_withReg h).imp_left fun ⟨ra, ha, h1⟩ => ⟨ra, ha, (Except.ok.inj h1).symm⟩
  | add a b => exact aluBinary_eq_next h
  | sub a b => exact aluBinary_eq_next h
  | mul a b => exact aluBinary_eq_next h
  | div a b => exact aluBinary_eq_next h
  | mod a b => exact aluBinary_eq_next h
  | and a b => exact aluBinary_eq_next h
  | or a b => exact aluBinary_eq_next h
  | xor a b => exact aluBinary_eq_next h
  | shl a b => exact aluBinary_eq_next h
  | shr a b => exact aluBinary_eq_next h
  | push a => exact execPush_eq_next h
  | pop a => exact execPop_eq_next h
  | call a => exact execCall_eq_next h
  | ret => exact execRet_eq_next h
  | cmp a b =>
    rcases finish_eq_next h with h | ⟨k, -, h⟩
    · obtain ⟨ra, rb, ha, hb, h1⟩ := withRegs_eq_ok h
      exact .inl ⟨ra, rb, ha, hb, (Except.ok.inj h1).symm⟩
    · exact .inr ⟨k, h⟩
  | jmp a => exact jumpIf_eq_next h
  | jeq a => exact jumpIf_eq_next h
  | jne a =>
    refine (jumpIf_eq_next h).imp_left fun ⟨ra, ha, h1⟩ => ⟨ra, ha, ?_⟩
    rw [h1]
    cases s.flags.eq <;> rfl
  | hlt => exact .inl (Host.Outcome.next.inj h).symm

/-- Every instruction answers a next state in every state: none stops. -/
theorem exec_total (i : Instr) (s : State) : ∃ t, exec i s = .next t := by
  cases i <;> first | exact finish_total _ _ _ | exact ⟨_, rfl⟩

end Sys2Proof.Machine
end

