-- ==== Sys2Proof/Laws/Step.lean ====
section
/-! SUPPORT. Everything a step can do: it runs the decoded instruction, or takes the fault of a failed fetch. -/

namespace Sys2Proof.Machine

/-! ## The fetch window -/

theorem fetchWindow_of_ge (m : Memory) {p : Nat} (h : 256 ≤ p) : fetchWindow m p = [] := by
  simp [fetchWindow, (memRead_eq_none_iff m p).mpr h, (memRead_eq_none_iff m (p + 1)).mpr (by omega),
    (memRead_eq_none_iff m (p + 2)).mpr (by omega)]

/-- In memory, the window begins with the byte at the program counter. -/
theorem fetchWindow_of_lt (m : Memory) {p : Nat} (h : p < 256) :
    fetchWindow m p = cellAt m p :: [p + 1, p + 2].filterMap (memRead m) := by
  simp [fetchWindow, memRead_of_lt m h]

theorem noStep_eq_none_iff (r : RunState) : noStep r = none ↔ r = .running := by cases r <;> simp [noStep]

/-- While running, a step is the decoded instruction, or the fault of the failed fetch. -/
theorem step_of_running {s : State} (h : s.run = .running) :
    step s = match decode s.config (fetchWindow s.mem s.pc) with
      | .ok (i, _) => exec i s
      | .error e => .next (raiseFault (fetchFault e).1 (fetchFault e).2 s) := by
  rw [step, h]
  simp only [noStep, fetchDecode]
  cases decode s.config (fetchWindow s.mem s.pc) <;> rfl

/-- The row the fetched instruction belongs to is the one of the byte at the program counter. -/
theorem opcode_of_decode {c : Config} {m : Memory} {p : Nat} {i : Instr} {rest : List Byte}
    (h : decode c (fetchWindow m p) = .ok (i, rest)) (henc : encode c i ++ rest = fetchWindow m p) :
    memRead m p = some (opcodeOf c i.mnemonic) := by
  by_cases hp : p < 256
  · rw [fetchWindow_of_lt m hp] at henc
    rw [memRead_of_lt m hp, ← (List.cons.inj henc).1]
  · rw [fetchWindow_of_ge m (by omega)] at h
    simp [decode] at h

/-- The opcode a failed fetch records is the byte at the program counter, absent outside memory. -/
theorem fetchFault_opcode {c : Config} {m : Memory} {p : Nat} {e : DecodeError}
    (h : decode c (fetchWindow m p) = .error e) : (fetchFault e).2 = memRead m p := by
  by_cases hp : p < 256
  · rw [fetchWindow_of_lt m hp] at h
    rw [memRead_of_lt m hp]
    simp only [decode] at h
    split at h
    · rw [← Except.error.inj h]; rfl
    · split at h
      · rw [← Except.error.inj h]; rfl
      · simp at h
  · rw [fetchWindow_of_ge m (by omega)] at h
    rw [(memRead_eq_none_iff m p).mpr (by omega), ← Except.error.inj h]
    rfl

/-- Everything `step` can answer with a next state. -/
theorem step_eq_next {s t : State} (h : step s = .next t) : s.run = .running ∧
    ((∃ i rest, decode s.config (fetchWindow s.mem s.pc) = .ok (i, rest) ∧ exec i s = .next t) ∨
      ∃ k, t = raiseFault k (memRead s.mem s.pc) s) := by
  have hr : s.run = .running := by
    cases hn : noStep s.run with
    | none => exact (noStep_eq_none_iff _).mp hn
    | some f => simp [step, hn] at h
  refine ⟨hr, ?_⟩
  rw [step_of_running hr] at h
  cases hd : decode s.config (fetchWindow s.mem s.pc) with
  | ok r => exact .inl ⟨r.1, r.2, rfl, by simpa [hd] using h⟩
  | error e =>
    rw [hd] at h
    exact .inr ⟨_, by rw [← fetchFault_opcode hd]; exact (Host.Outcome.next.inj h).symm⟩

end Sys2Proof.Machine
end

