-- ==== Sys2Proof/Tests/Slice0.lean ====
section
/-! SUPPORT. Tests. Expected values come from the vectors of 95_test_vectors.md (named in each comment) and from the rules'
own examples. Then one witness for each statement that has hypotheses. -/

namespace Sys2Proof.Tests

open Sys2Proof.Machine

/-- The reset state, running, with bytes from `p` on and the pc at `p`. -/
def startAt (p : Nat) (bytes : List Byte) : State :=
  { State.reset with mem := writeBytes [] p bytes, pc := p, run := .running }

/-- Set some registers. -/
def regs (l : List (RegIdx × Byte)) (s : State) : State := l.foldl (fun s c => writeReg s c.1 c.2) s

/-- One more byte of memory. -/
def poke (a : Nat) (v : Byte) (s : State) : State := { s with mem := setCell s.mem a v }

/-- Set the image length. -/
def image (L : Nat) (s : State) : State := { s with imageLen := L }

/-- The same machine built with other parameters. -/
def withConfig (c : Config) (s : State) : State := { s with config := c }

/-- A fixed floor of 0x10. -/
def floor16 : Config := { defaultConfig with stackFloor := .table (Vector.replicate 257 0x10) }

/-- Another opcode byte for SUB. -/
def sub255 : Config := { defaultConfig with opcodeByte := { defaultOpcodeBytes with sub := 0xFF } }

/-- Look at the next state of an answer. -/
def see {α : Type} (o : Result) (f : State → α) : Option α :=
  match o with
  | .next t => some (f t)
  | .fault _ => none
  | .refused _ => none

/-- Run state, record and pc: what a fault vector gives. -/
def faultView (t : State) : RunState × Option FaultRecord × Nat := (t.run, t.fault, t.pc)

/-! ## Well-formedness -/

theorem test_wf_regA : wellFormed (.ldi 8 0) = false := by decide
theorem test_wf_regB : wellFormed (.add 0 8) = false := by decide
theorem test_wf_regA_unary : wellFormed (.jeq 255) = false := by decide
theorem test_wf_immediate_free : wellFormed (.ldi 7 255) = true := by decide

/-! ## Decoding: words written out from the encodings of files 40 to 46 -/

theorem test_decode_prn : decode defaultConfig [0b01000111, 0b00000111] = .ok (.prn 7, []) := by decide
theorem test_decode_add : decode defaultConfig [0b10100000, 0b00000001, 0b00000010] = .ok (.add 1 2, []) := by decide
theorem test_decode_sub : decode defaultConfig [0b10100001, 0b00000001, 0b00000010] = .ok (.sub 1 2, []) := by decide
theorem test_decode_mul : decode defaultConfig [0b10100010, 0b00000001, 0b00000010] = .ok (.mul 1 2, []) := by decide
theorem test_decode_mod : decode defaultConfig [0b10100100, 0b00000001, 0b00000010] = .ok (.mod 1 2, []) := by decide
theorem test_decode_and : decode defaultConfig [0b10101000, 0b00000001, 0b00000010] = .ok (.and 1 2, []) := by decide
theorem test_decode_or : decode defaultConfig [0b10101010, 0b00000001, 0b00000010] = .ok (.or 1 2, []) := by decide
theorem test_decode_xor : decode defaultConfig [0b10101011, 0b00000001, 0b00000010] = .ok (.xor 1 2, []) := by decide
theorem test_decode_shl : decode defaultConfig [0b10101100, 0b00000100, 0b00000011] = .ok (.shl 4 3, []) := by decide
theorem test_decode_shr : decode defaultConfig [0b10101101, 0b00000001, 0b00000011] = .ok (.shr 1 3, []) := by decide
theorem test_decode_push : decode defaultConfig [0b01000101, 0b00000101] = .ok (.push 5, []) := by decide
theorem test_decode_call : decode defaultConfig [0b01010000, 0b00000001] = .ok (.call 1, []) := by decide
theorem test_decode_jmp : decode defaultConfig [0b01010100, 0b00000011] = .ok (.jmp 3, []) := by decide
theorem test_decode_jeq : decode defaultConfig [0b01010101, 0b00000010] = .ok (.jeq 2, []) := by decide

/-- The words of LDI, DIV, NOT, POP, RET, CMP, JNE and HLT. -/
theorem test_decode_families : Obligations.WordsOfEachFamilyDecode :=
  ⟨rfl, rfl, rfl, rfl, rfl, rfl, rfl, rfl⟩

/-- DF3, DF4: 83 and A9 are no opcodes; S13: nor is 00. -/
theorem test_decode_unknown : decode defaultConfig [0x83, 0, 0] = .error (.unknownOpcode 0x83) ∧
    decode defaultConfig [0xA9, 0, 0] = .error (.unknownOpcode 0xA9) ∧
    decode defaultConfig [0x00] = .error (.unknownOpcode 0x00) := by decide

theorem test_decode_missing : decode defaultConfig [0xA3, 0x00] = .error (.missingOperand 0xA3) ∧
    decode defaultConfig [0x47] = .error (.missingOperand 0x47) ∧
    decode defaultConfig [] = .error .noOpcode := by decide

/-- 30_encoding.md R74: bits 7 and 6 count the operand bytes; bit 5 is set for the ALU class and CMP; bit 4 for what may assign
the pc. -/
theorem test_opcode_layout : ∀ m ∈ allMnemonics,
    (opcodeOf defaultConfig m).toNat / 64 = lengthOf m - 1 ∧
    (opcodeOf defaultConfig m).getLsbD 5 =
      decide (m ∈ ([.add, .sub, .mul, .div, .mod, .and, .or, .xor, .not, .shl, .shr, .cmp] : List Mnemonic)) ∧
    (opcodeOf defaultConfig m).getLsbD 4 = decide (m ∈ ([.call, .ret, .jmp, .jeq, .jne] : List Mnemonic)) := by decide

/-- 234 of the 256 byte values are illegal (30_encoding.md R78). -/
theorem test_illegal_count :
    ((List.range 256).filter fun n => (mnemonicOf defaultConfig (BitVec.ofNat 8 n)).isNone).length = 234 := by
  decide +kernel

/-- 30_encoding.md R85, the source's example. -/
theorem test_asm : asmText (.ldi 0 8) = "LDI R0, 8" ∧ asmText (.add 0 1) = "ADD R0, R1" ∧ asmText .hlt = "HLT" := by decide

/-- The table word of an ADD, and the step that runs it first after reset. -/
theorem test_table_word : decodeTableWord 24 0x0201A0 = some (.add 1 2) ∧ decodeTableWord 8 0xA0 = some (.add 0 0) := by
  decide
theorem test_fetch_word : see (step (State.reset.withFetchWord 8 0x01)) (fun t => (t.run, t.pc)) = some (.halted, 1) := by
  decide

/-! ## Load and output -/

/-- LV1. -/
theorem test_ldi : see (step (startAt 0 [0x82, 0x00, 0x08])) (fun t => (readReg t 0, t.pc)) = some (0x08, 3) := by decide
/-- LV3. -/
theorem test_ldi_sp : see (step (startAt 5 [0x82, 0x07, 0x10])) (fun t => (sp t, t.pc)) = some (0x10, 8) := by decide
/-- LV8. -/
theorem test_prn : see (step (regs [(0, 0x11)] (startAt 0 [0x47, 0x00]))) (fun t => (t.out, t.pc)) = some ([17], 2) := by
  decide
/-- LV10. -/
theorem test_prn_sp : see (step (startAt 0 [0x47, 0x07])) (fun t => t.out) = some [244] := by decide

/-! ## ALU -/

/-- AL2. -/
theorem test_add_wraps : see (step (regs [(0, 200), (1, 100)] (startAt 0 [0xA0, 0, 1]))) (fun t => (readReg t 0, t.pc)) =
    some (44, 3) := by decide
/-- AL3. -/
theorem test_add_same : see (step (regs [(0, 0x80)] (startAt 0 [0xA0, 0, 0]))) (fun t => readReg t 0) = some 0 := by decide
/-- AL6. -/
theorem test_sub_wraps : see (step (regs [(0, 3), (1, 5)] (startAt 0 [0xA1, 0, 1]))) (fun t => (readReg t 0, t.pc)) =
    some (254, 3) := by decide
/-- AL12. -/
theorem test_mul_low : see (step (regs [(0, 0xFF), (1, 0xFF)] (startAt 0 [0xA2, 0, 1]))) (fun t => (readReg t 0, t.pc)) =
    some (1, 3) := by decide
/-- AL18. -/
theorem test_div_unsigned : see (step (regs [(0, 0xFF), (1, 0x80)] (startAt 0 [0xA3, 0, 1])))
    (fun t => (readReg t 0, t.pc)) = some (1, 3) := by decide
/-- AL20. -/
theorem test_div_zero : see (step (regs [(0, 9)] (startAt 4 [0xA3, 0, 1]))) (fun t => (readReg t 0, faultView t)) =
    some (9, .faulted, some ⟨.divisionByZero, 4, some 0xA3⟩, 4) := by decide
/-- AL25. -/
theorem test_mod_unsigned : see (step (regs [(0, 0xFF), (1, 0x80)] (startAt 0 [0xA4, 0, 1])))
    (fun t => (readReg t 0, t.pc)) = some (0x7F, 3) := by decide
/-- AL26. -/
theorem test_mod_zero : see (step (regs [(0, 7)] (startAt 0 [0xA4, 0, 1]))) faultView =
    some (.faulted, some ⟨.moduloByZero, 0, some 0xA4⟩, 0) := by decide
/-- AL27. -/
theorem test_and : see (step (regs [(0, 0xF0), (1, 0x3C)] (startAt 0 [0xA8, 0, 1]))) (fun t => (readReg t 0, t.pc)) =
    some (0x30, 3) := by decide
/-- AL29. -/
theorem test_or : see (step (regs [(0, 0xF0), (1, 0x3C)] (startAt 0 [0xAA, 0, 1]))) (fun t => (readReg t 0, t.pc)) =
    some (0xFC, 3) := by decide
/-- AL31. -/
theorem test_xor : see (step (regs [(0, 0xF0), (1, 0x3C)] (startAt 0 [0xAB, 0, 1]))) (fun t => (readReg t 0, t.pc)) =
    some (0xCC, 3) := by decide
/-- AL34, at the address of AL50. -/
theorem test_not_top : see (step (regs [(0, 0x0F)] (startAt 0xFE [0x69, 0]))) (fun t => (readReg t 0, t.pc)) =
    some (0xF0, 256) := by decide
/-- AL37. -/
theorem test_shl : see (step (regs [(0, 0x81), (1, 1)] (startAt 0 [0xAC, 0, 1]))) (fun t => (readReg t 0, t.pc)) =
    some (2, 3) := by decide
/-- AL40: the amount is not masked. -/
theorem test_shl_unmasked : see (step (regs [(0, 0xFF), (1, 9)] (startAt 0 [0xAC, 0, 1]))) (fun t => readReg t 0) =
    some 0 := by decide
/-- AL43. -/
theorem test_shr : see (step (regs [(0, 0x81), (1, 1)] (startAt 0 [0xAD, 0, 1]))) (fun t => (readReg t 0, t.pc)) =
    some (0x40, 3) := by decide
/-- AL45. -/
theorem test_shr_all : see (step (regs [(0, 0xFF), (1, 8)] (startAt 0 [0xAD, 0, 1]))) (fun t => readReg t 0) =
    some 0 := by decide

/-! ## Stack: L = 0x20 as in section 2.3 -/

/-- ST10: the lowest valid slot. -/
theorem test_push_lowest : see (step (image 0x20 (regs [(0, 5), (7, 0x21)] (startAt 0 [0x45, 0]))))
    (fun t => (sp t, memRead t.mem 0x20, t.pc)) = some (0x20, some 5, 2) := by decide
/-- ST3: PUSH R7 stores the decremented stack pointer. -/
theorem test_push_sp : see (step (startAt 0 [0x45, 7])) (fun t => (sp t, memRead t.mem 0xF3)) =
    some (0xF3, some 0xF3) := by decide
/-- ST2. -/
theorem test_pop : see (step (poke 0xF3 5 (regs [(7, 0xF3)] (startAt 0 [0x46, 2]))))
    (fun t => (readReg t 2, sp t, memRead t.mem 0xF3, t.pc)) = some (5, 0xF4, some 5, 2) := by decide
/-- ST5: POP R7. -/
theorem test_pop_sp : see (step (poke 0xF3 0xFF (regs [(7, 0xF3)] (startAt 0 [0x46, 7])))) (fun t => sp t) = some 0 := by
  decide
/-- ST8, ST9, ST13, ST6, ST7, ST11: the checks, at the edges of the region. -/
theorem test_stack_checks :
    checkPush defaultConfig 0x20 0x00 = .error .stackUnderflow ∧ checkPush defaultConfig 0x20 0x20 = .error .stackOverflow ∧
    checkPush defaultConfig 0x20 0xF5 = .error .stackUnderflow ∧ checkPush defaultConfig 0x20 0xF4 = .ok () ∧
    checkPop defaultConfig 0x20 0xF4 = .error .stackUnderflow ∧ checkPop defaultConfig 0x20 0xFA = .error .stackUnderflow ∧
    checkPop defaultConfig 0x20 0x1F = .error .stackOverflow ∧ checkPop defaultConfig 0x20 0x20 = .ok () :=
  ⟨rfl, rfl, rfl, rfl, rfl, rfl, rfl, rfl⟩
/-- ST14: with `stackTop` 256 a push at 0xFF completes; with the default the same push takes StackUnderflow. -/
theorem test_stack_top_parameter :
    see (step (withConfig { defaultConfig with stackTop := 256 } (image 0x20 (regs [(0, 9), (7, 0xFF)]
      (startAt 0 [0x45, 0]))))) (fun t => (sp t, memRead t.mem 0xFE, t.pc)) = some (0xFE, some 9, 2) ∧
    see (step (image 0x20 (regs [(0, 9), (7, 0xFF)] (startAt 0 [0x45, 0])))) faultView =
      some (.faulted, some ⟨.stackUnderflow, 0, some 0x45⟩, 0) := by decide
/-- R143 with a floor of 0x10 whatever L is: ST9's push completes, and one at the floor takes StackOverflow. -/
theorem test_stack_floor_parameter :
    see (step (withConfig floor16 (image 0x20 (regs [(0, 9), (7, 0x20)] (startAt 0 [0x45, 0])))))
      (fun t => (sp t, memRead t.mem 0x1F)) = some (0x1F, some 9) ∧
    see (step (withConfig floor16 (image 0x20 (regs [(7, 0x10)] (startAt 0 [0x45, 0]))))) faultView =
      some (.faulted, some ⟨.stackOverflow, 0, some 0x45⟩, 0) := by decide
/-- R75 with another byte for SUB: FF subtracts, and A1 is no opcode. -/
theorem test_opcode_parameter :
    see (step (withConfig sub255 (regs [(0, 3), (1, 5)] (startAt 0 [0xFF, 0, 1])))) (fun t => (readReg t 0, t.pc)) =
      some (254, 3) ∧
    see (step (withConfig sub255 (startAt 0 [0xA1, 0, 1]))) faultView =
      some (.faulted, some ⟨.unknownOpcode, 0, some 0xA1⟩, 0) := by decide
/-- ST16: the index check comes before the stack check. -/
theorem test_push_bad_index : see (step (regs [(7, 0)] (startAt 0 [0x45, 8]))) faultView =
    some (.faulted, some ⟨.outOfBounds, 0, some 0x45⟩, 0) := by decide

/-! ## Subroutine -/

/-- SU1. -/
theorem test_call : see (step (regs [(1, 0x0B)] (startAt 6 [0x50, 1]))) (fun t => (sp t, memRead t.mem 0xF3, t.pc)) =
    some (0xF3, some 8, 0x0B) := by decide
/-- SU6: CALL R7. -/
theorem test_call_sp : see (step (startAt 0x10 [0x50, 7])) (fun t => (memRead t.mem 0xF3, t.pc)) =
    some (some 0x12, 0xF3) := by decide
/-- SU9: RET at the last address. -/
theorem test_ret_top : see (step (poke 0xF3 8 (regs [(7, 0xF3)] (startAt 0xFF [0x11])))) (fun t => (t.pc, sp t)) =
    some (8, 0xF4) := by decide
/-- SU3. -/
theorem test_ret_empty : see (step (startAt 0 [0x11])) faultView =
    some (.faulted, some ⟨.stackUnderflow, 0, some 0x11⟩, 0) := by decide

/-! ## Compare, jumps, halt -/

/-- CP5: unsigned. -/
theorem test_cmp_unsigned : see (step (regs [(0, 0xFF)] (startAt 0 [0xA7, 0, 1]))) (fun t => (t.flags, t.pc)) =
    some (⟨false, false, true⟩, 3) := by decide
/-- CP8: a flag set before is overwritten. -/
theorem test_cmp_overwrites : see (step (setFlags (regs [(0, 3), (1, 5)] (startAt 0 [0xA7, 0, 1])) ⟨true, false, true⟩))
    (fun t => t.flags) = some ⟨false, true, false⟩ := by decide
/-- JP1. -/
theorem test_jmp : see (step (regs [(3, 0x0C)] (startAt 0 [0x54, 3]))) (fun t => t.pc) = some 0x0C := by decide
/-- JP3. -/
theorem test_jeq_taken : see (step (setFlags (regs [(2, 0x15)] (startAt 0 [0x55, 2])) ⟨true, false, false⟩))
    (fun t => t.pc) = some 0x15 := by decide
/-- JP6: not taken at the top, the pc does not wrap. -/
theorem test_jeq_top : see (step (startAt 0xFE [0x55, 2])) (fun t => (t.pc, t.run)) = some (256, .running) := by decide
/-- JP7. -/
theorem test_jne_taken : see (step (regs [(3, 0x0C)] (startAt 0 [0x56, 3]))) (fun t => t.pc) = some 0x0C := by decide
/-- JP8. -/
theorem test_jne_not_taken : see (step (setFlags (startAt 0x10 [0x56, 3]) ⟨true, false, false⟩)) (fun t => t.pc) =
    some 0x12 := by decide
/-- HL2. -/
theorem test_hlt_top : see (step (startAt 0xFF [0x01])) (fun t => (t.run, t.pc, t.fault)) = some (.halted, 256, none) := by
  decide

/-! ## Step faults -/

/-- DF1. -/
theorem test_fetch_256 : see (step (startAt 256 [])) faultView = some (.faulted, some ⟨.outOfBounds, 256, none⟩, 256) := by
  decide
/-- DF2, S10. -/
theorem test_unknown_zero : see (step (startAt 0 [])) faultView = some (.faulted, some ⟨.unknownOpcode, 0, some 0⟩, 0) := by
  decide
/-- DF5: the missing operand comes before the zero divisor. -/
theorem test_missing_operand : see (step (startAt 0xFE [0xA3, 0])) faultView =
    some (.faulted, some ⟨.outOfBounds, 0xFE, some 0xA3⟩, 0xFE) := by decide
/-- DF6: the index comes before the zero divisor. -/
theorem test_index_before_zero : see (step (startAt 0 [0xA3, 9, 1])) faultView =
    some (.faulted, some ⟨.outOfBounds, 0, some 0xA3⟩, 0) := by decide

/-! ## Host -/

/-- The host's load and run: the image stands at 0, and a load after run is refused. -/
theorem test_host_load :
    (match hostLoad [0x01] construct with
      | .next h => some (memRead h.core.mem 0, h.core.imageLen, h.loaded)
      | .fault _ => none
      | .refused _ => none) = some (some 1, 1, true) := by decide
theorem test_host_load_late : hostLoad [] ⟨startAt 0 [], false⟩ = .refused .hostLoadOutsideIdle := rfl
theorem test_host_run_late : hostRun ⟨startAt 0 [], true⟩ = .refused .hostRunOutsideIdle := rfl
/-- D23: at 255 two of the three bytes are absent. -/
theorem test_snapshot_top : (snapshot (startAt 255 [0x01])).byte0 = some 1 ∧ (snapshot (startAt 255 [0x01])).byte1 = none ∧
    (snapshot (startAt 255 [0x01])).byte2 = none := by decide

/-! ## Witnesses: for each statement with hypotheses, a state and operands that meet all of them, and for each clause one at a
boundary of its range -/

/-- DecodeEncodeRoundTrip, and the configuration premise of StepRunsTheBytesAtPc and LoadPlacesTheImage: the default table, and another one. -/
theorem witness_distinct : DistinctOpcodes defaultConfig := by decide
theorem witness_distinct_other : DistinctOpcodes sub255 := by decide

/-- ConfigurationCoversTheParameters: a row that is configurable, and the two ends of L. -/
theorem witness_parameters : Mnemonic.sub ∉ [Mnemonic.ldi, .prn, .add, .hlt] ∧ 0 ≤ 256 ∧ 256 ≤ 256 := by decide

/-- ConfigurationNeverChanges: an instruction and a step that answer a next state, a load and a run that have a move. -/
theorem witness_config_kept : (∃ t, exec .ret State.reset = .next t) ∧ (∃ t, step (startAt 0 []) = .next t) ∧
    (∃ g, hostLoad [0x01] (constructWith sub255) = .next g) ∧ ∃ g, hostRun (constructWith sub255) = .next g :=
  ⟨⟨_, rfl⟩, ⟨_, rfl⟩, ⟨_, rfl⟩, _, rfl⟩

/-- EncodeDecodeRoundTrip. -/
theorem witness_encode_decode : decode defaultConfig [0xA7, 0xFF, 0x00, 0x11] = .ok (.cmp 0xFF 0, [0x11]) := by decide

/-- MemoryPrimitives: a write at the last address, of the value an unlisted address reads as. -/
theorem witness_memory : memWrite [(255, 7)] 255 0 = some [] := by decide

/-- CanonicalMemoryIsUnique. -/
theorem witness_unique : Memory.wf [(0, 1), (255, 7)] ∧
    ∀ a, memRead [(0, 1), (255, 7)] a = memRead [(0, 1), (255, 7)] a := ⟨by decide, fun _ => rfl⟩

/-- StepKeepsInv: HLT at the last address. -/
theorem witness_inv : (startAt 255 [0x01]).Inv ∧ ∃ t, step (startAt 255 [0x01]) = .next t :=
  ⟨⟨by decide, by decide, by decide, by decide, fun r h => (nomatch h), by decide⟩, _, rfl⟩

/-- StepRunsDecoded: a one-byte instruction at 255. -/
theorem witness_step_decoded : (startAt 255 [0x11]).run = .running ∧
    decode (startAt 255 [0x11]).config (fetchWindow (startAt 255 [0x11]).mem 255) = .ok (.ret, []) := by decide

/-- StepRunsTheBytesAtPc: a three-byte instruction ending at 255. -/
theorem witness_step_bytes : (startAt 253 [0x82, 7, 0xFF]).run = .running ∧
    DistinctOpcodes (startAt 253 [0x82, 7, 0xFF]).config ∧
    ∀ k, k < (encode (startAt 253 [0x82, 7, 0xFF]).config (.ldi 7 0xFF)).length →
      memRead (startAt 253 [0x82, 7, 0xFF]).mem (253 + k) =
        (encode (startAt 253 [0x82, 7, 0xFF]).config (.ldi 7 0xFF))[k]? := by decide

/-- UnknownOpcodeFaults: 00 at 0 and FF at 255, in the default table; A1 in another. -/
theorem witness_unknown : (∀ m ∈ allMnemonics, opcodeOf (startAt 0 []).config m ≠ 0x00) ∧
    (∀ m ∈ allMnemonics, opcodeOf (withConfig sub255 (startAt 0 [0xA1])).config m ≠ 0xA1) ∧
    memRead (withConfig sub255 (startAt 0 [0xA1])).mem 0 = some 0xA1 ∧ (startAt 0 []).config = defaultConfig ∧
    memRead (startAt 0 []).mem 0 = some 0x00 ∧ memRead (startAt 255 [0xFF]).mem 255 = some 0xFF ∧
    (startAt 0 []).run = .running ∧ (startAt 255 [0xFF]).run = .running := by decide

/-- FetchOutOfBoundsFaults: pc 256; a two-byte row at 255; a three-byte row at 254. -/
theorem witness_fetch_bounds : (startAt 256 []).run = .running ∧ (startAt 255 [0x47]).run = .running ∧
    (startAt 254 [0x82]).run = .running ∧ 256 ≤ (startAt 256 []).pc ∧
    (memRead (startAt 255 [0x47]).mem 255 = some 0x47 ∧ mnemonicOf (startAt 255 [0x47]).config 0x47 = some .prn ∧
      256 < 255 + lengthOf .prn) ∧
    (memRead (startAt 254 [0x82]).mem 254 = some 0x82 ∧ mnemonicOf (startAt 254 [0x82]).config 0x82 = some .ldi ∧
      256 < 254 + lengthOf .ldi) := by decide

/-- NoStepOutsideRunning: idle, halted, faulted. -/
theorem witness_no_step : State.reset.run = .idle ∧ (setHalted State.reset).run = .halted ∧
    (raiseFault .outOfBounds none State.reset).run = .faulted := by decide

/-- RunStateMachine: a constructed session is idle; a started machine is running; a halted one is halted. -/
theorem witness_run_states : construct.core.run = .idle ∧ (startAt 0 []).run = .running ∧
    (setHalted State.reset).run = .halted := by decide

/-- FaultEntryWritesOnlyTheRecord, and the second clause of OnlyCmpWritesFlagsAndOnlyEqIsRead: a step that takes a fault, at 0
and at 256. -/
theorem witness_fault_entry : see (step (startAt 0 [])) (fun t => t.run) = some .faulted ∧
    see (step (startAt 256 [])) (fun t => t.run) = some .faulted := by decide

/-- FlagsPersistBetweenCompares: an instruction that is no CMP and completes, registers holding 5 and 5, and 3 and 5. -/
theorem witness_flags : (∃ t, exec .hlt (startAt 0 [0x01]) = .next t) ∧ (∀ a b, Instr.hlt ≠ .cmp a b) ∧
    readReg (regs [(0, 5), (1, 5)] State.reset) 0 = 5 ∧ readReg (regs [(0, 5), (1, 5)] State.reset) 1 = 5 ∧
    readReg (regs [(0, 3), (1, 5)] State.reset) 0 = 3 ∧ readReg (regs [(0, 3), (1, 5)] State.reset) 1 = 5 :=
  ⟨⟨_, rfl⟩, fun _ _ => nofun, by decide⟩

/-- OnlyCmpWritesFlagsAndOnlyEqIsRead: a CMP that changes the flags, a jump register that is not the next address, an
instruction that is no CMP. -/
theorem witness_flag_reads :
    see (exec (.cmp (regByte 0) (regByte 1)) State.reset) (fun t => decide (t.flags = State.reset.flags)) = some false ∧
    (readReg State.reset 7).toNat ≠ State.reset.pc + 2 ∧ ∀ a b, Instr.ret ≠ .cmp a b :=
  ⟨by decide, by decide, fun _ _ => nofun⟩

/-- OutputIsWrittenOnlyByPrn: an instruction that is no PRN of a register: PRN of the byte 8. -/
theorem witness_output : (∀ ra : RegIdx, Instr.prn 8 ≠ .prn (regByte ra)) ∧ ∃ t, exec (.prn 8) State.reset = .next t :=
  ⟨by decide, _, rfl⟩

/-- PcAdvancesOrIsAssigned, one state for every row: from a running state with sp 0xF3 each completes. -/
theorem witness_pc_rule : ∀ i ∈ [Instr.ldi 0 0, .prn 0, .add 0 7, .sub 0 7, .mul 0 7, .div 0 7, .mod 0 7, .and 0 7, .or 0 7,
      .xor 0 7, .not 0, .shl 0 7, .shr 0 7, .push 0, .pop 0, .call 0, .ret, .cmp 0 7, .jmp 0, .jeq 0, .jne 0, .hlt],
    see (exec i (regs [(7, 0xF3)] (startAt 0 []))) (fun t => decide (t.run ≠ .faulted)) = some true := by decide

/-- BadRegisterIndexFaults: 8 and 255. -/
theorem witness_bad_index : 8 ≤ (8 : Byte).toNat ∧ 8 ≤ (255 : Byte).toNat := by decide

/-- RegistersChangeOnlyAsListed: a POP that changes both its registers. -/
theorem witness_registers : see (exec (.pop (regByte 0)) (poke 0xF3 9 (regs [(7, 0xF3)] State.reset)))
    (fun t => (readReg t 0, readReg t 7)) = some (9, 0xF4) := by decide

/-- MemoryChangesOnlyBelowSp: a PUSH and a CALL that change the byte below sp. -/
theorem witness_memory_changes :
    see (exec (.push (regByte 7)) State.reset) (fun t => memRead t.mem 0xF3) = some (some 0xF3) ∧
    see (exec (.call (regByte 0)) State.reset) (fun t => memRead t.mem 0xF3) = some (some 2) ∧
    memRead State.reset.mem 0xF3 = some 0 := by decide

/-- ImageIsNeverOverwritten: a step from a state with an image, and addresses in both ranges. -/
theorem witness_image : (∃ t, Sys2Proof.core.run 1 (image 2 (startAt 0 [0x45, 0])) = .next t) ∧
    1 < stackFloorOf (image 2 (startAt 0 [0x45, 0])).config 2 ∧ (image 2 (startAt 0 [0x45, 0])).config.stackTop ≤ 0xF4 ∧
    (image 2 (startAt 0 [0x45, 0])).config.stackFloor = .imageLength ∧ 1 < (image 2 (startAt 0 [0x45, 0])).imageLen :=
  ⟨⟨_, rfl⟩, by decide, by decide, rfl, by decide⟩

/-- LdiLoadsItsImmediate: the bytes at 253, an index of 8, an opcode at 254. -/
theorem witness_ldi : (startAt 253 [0x82, 8, 1]).run = .running ∧ (startAt 254 [0x82]).run = .running ∧
    (memRead (startAt 253 [0x82, 8, 1]).mem 253 = some 0x82 ∧
      memRead (startAt 253 [0x82, 8, 1]).mem 254 = some 8 ∧ memRead (startAt 253 [0x82, 8, 1]).mem 255 = some 1) ∧
    8 ≤ (8 : Byte).toNat ∧ (memRead (startAt 254 [0x82]).mem 254 = some 0x82 ∧ 256 ≤ 254 + 2) := by decide

/-- PrnEmitsItsRegister: the bytes at 254, an index of 8, an opcode at 255. -/
theorem witness_prn : (startAt 254 [0x47, 8]).run = .running ∧ (startAt 255 [0x47]).run = .running ∧
    (memRead (startAt 254 [0x47, 8]).mem 254 = some 0x47 ∧
      memRead (startAt 254 [0x47, 8]).mem 255 = some 8) ∧
    8 ≤ (8 : Byte).toNat ∧ (memRead (startAt 255 [0x47]).mem 255 = some 0x47 ∧ 256 ≤ 255 + 1) := by decide

/-- AluBinaryForm: DIV of 200 by 7 gives a value. -/
theorem witness_alu : alu .div 200 7 = .ok 28 := by decide

/-- DivModOfNonzero and DivModByZeroFaults: R7 is not zero at reset, R0 is. -/
theorem witness_divisor : readReg State.reset 7 ≠ 0 ∧ readReg State.reset 0 = 0 := by decide

/-- HltHalts: the byte 01 at 255, running. -/
theorem witness_hlt : (startAt 255 [0x01]).run = .running ∧ memRead (startAt 255 [0x01]).mem 255 = some 0x01 := by decide

/-- PushStoresBelowSp: both ends of the region, and the top of a region up to 256. -/
theorem witness_push : PushAllowed (image 0x20 (regs [(7, 0x21)] State.reset)) ∧ PushAllowed (image 0x20 State.reset) ∧
    PushAllowed (withConfig { defaultConfig with stackTop := 256 } (regs [(7, 0xFF)] State.reset)) := by
  unfold PushAllowed; decide

/-- PopLoadsFromSp and RetPopsIntoPc: both ends of the region, and a pop that wraps R7 to 0. -/
theorem witness_pop : PopAllowed (image 0x20 (regs [(7, 0x20)] State.reset)) ∧
    PopAllowed (image 0x20 (regs [(7, 0xF3)] State.reset)) ∧
    PopAllowed (withConfig { defaultConfig with stackTop := 256 } (regs [(7, 0xFF)] State.reset)) := by
  unfold PopAllowed; decide

/-- CallPushesReturnAddress and CallThenRetReturns: a CALL at 253, with a state after it that keeps what the law asks. -/
theorem witness_call : (startAt 253 [0x50, 1]).pc + 2 < 256 ∧ PushAllowed (startAt 253 [0x50, 1]) ∧
    ∃ t, exec (.call (regByte 1)) (startAt 253 [0x50, 1]) = .next t ∧ ∃ u : State, sp u = sp t ∧
      memRead u.mem (sp t).toNat = memRead t.mem (sp t).toNat ∧ u.imageLen = t.imageLen ∧ u.config = t.config :=
  ⟨by decide, by unfold PushAllowed; decide, _, rfl, _, rfl, rfl, rfl, rfl⟩

/-- PushAndCallStackFaults: sp 0, sp L, sp 0xF5, each with its kind, and a return address that fits. -/
theorem witness_push_faults : (sp (image 0x20 (regs [(7, 0)] State.reset))).toNat = 0 ∧
    ((sp (image 0x20 (regs [(7, 0x20)] State.reset))).toNat ≠ 0 ∧
      (sp (image 0x20 (regs [(7, 0x20)] State.reset))).toNat ≤ stackFloorOf State.reset.config 0x20) ∧
    (stackFloorOf State.reset.config 0x20 < (sp (image 0x20 (regs [(7, 0xF5)] State.reset))).toNat ∧
      State.reset.config.stackTop < (sp (image 0x20 (regs [(7, 0xF5)] State.reset))).toNat) ∧
    State.reset.pc + 2 < 256 := by decide

/-- PopAndRetStackFaults: sp 0xF4 and sp L - 1. -/
theorem witness_pop_faults : State.reset.config.stackTop ≤ (sp (image 0x20 State.reset)).toNat ∧
    (sp (image 0x20 (regs [(7, 0x1F)] State.reset))).toNat < State.reset.config.stackTop ∧
    (sp (image 0x20 (regs [(7, 0x1F)] State.reset))).toNat < stackFloorOf State.reset.config 0x20 := by decide

/-- CallReturnAddressFault: a CALL at 254; StackAccessIsNeverOutOfBounds: one at 253. -/
theorem witness_call_edge : 256 ≤ (startAt 254 [0x50, 1]).pc + 2 ∧ (startAt 253 [0x50, 1]).pc + 2 < 256 ∧
    (startAt 253 [0x50, 1]).run = .running := by decide

/-- PushThenPopRoundTrip: R0 and R1 from reset. -/
theorem witness_push_pop : (0 : RegIdx) ≠ 1 ∧ (0 : RegIdx) ≠ spIdx ∧ (1 : RegIdx) ≠ spIdx ∧ PushAllowed State.reset := by
  unfold PushAllowed; decide

/-- LoadPlacesTheImage: an image of 256 bytes and one of 257. -/
theorem witness_load : (List.replicate 256 (1 : Byte)).length ≤ 256 ∧ 256 < (List.replicate 257 (1 : Byte)).length := by
  rw [List.length_replicate, List.length_replicate]; decide

/-- RunEndsOnlyWhenEnded: one step ends a run of HLT. -/
theorem witness_run_ends : ∃ t, runFuel 1 (startAt 0 [0x01]) = some t := ⟨_, rfl⟩

end Sys2Proof.Tests
end

section
/-! PROOFS. The obligations of 10_state.md on the flags, the output, the program counter and bad register indices, with the
three facts they turn on: what a completing instruction writes beyond memory, registers and the program counter; which
updates of the state an instruction does not see; and the fault of a byte that names no register. -/

namespace Sys2Proof.Machine

/-! ## What a completing instruction writes -/

/-- Beyond memory, registers and the program counter, PRN writes the output, CMP the flags, HLT the run state, and no other
instruction anything (10_state.md R31, R36; 46_halt.md R180). -/
theorem Completes.effect {i : Instr} {s t : State} (h : Completes i s t) :
    (∃ m x p, t = { s with mem := m, x := x, pc := p }) ∨
    (∃ ra, i = .prn (regByte ra) ∧ t = advance .prn (emit s (readReg s ra))) ∨
    (∃ ra rb, i = .cmp (regByte ra) (regByte rb) ∧
      t = advance .cmp (setFlags s (compareFlags (readReg s ra) (readReg s rb)))) ∨
    (i = .hlt ∧ t = advance .hlt (setHalted s)) := by
  cases i with
  | prn a =>
    obtain ⟨ra, rfl, ht⟩ := h
    exact .inr (.inl ⟨ra, rfl, ht⟩)
  | cmp a b =>
    obtain ⟨ra, rb, rfl, rfl, ht⟩ := h
    exact .inr (.inr (.inl ⟨ra, rb, rfl, ht⟩))
  | hlt => exact .inr (.inr (.inr ⟨rfl, h⟩))
  | add a b | sub a b | mul a b | div a b | mod a b | and a b | or a b | xor a b | shl a b | shr a b =>
    obtain ⟨_, _, _, -, -, -, rfl⟩ := h
    exact .inl ⟨_, _, _, rfl⟩
  | ldi a _ | not a | jmp a =>
    obtain ⟨_, -, rfl⟩ := h
    exact .inl ⟨_, _, _, rfl⟩
  | push a | pop a =>
    obtain ⟨_, -, -, rfl⟩ := h
    exact .inl ⟨_, _, _, rfl⟩
  | call a =>
    obtain ⟨_, -, -, -, rfl⟩ := h
    exact .inl ⟨_, _, _, rfl⟩
  | ret =>
    obtain ⟨-, rfl⟩ := h
    exact .inl ⟨_, _, _, rfl⟩
  | jeq a | jne a =>
    obtain ⟨_, -, rfl⟩ := h
    split <;> exact .inl ⟨_, _, _, rfl⟩

/-- Only a CMP of two registers can write the flags, and it leaves the run state. -/
theorem Completes.flags_eq_or_cmp {i : Instr} {s t : State} (h : Completes i s t) :
    t.flags = s.flags ∨ t.run = s.run ∧ ∃ ra rb, i = .cmp (regByte ra) (regByte rb) := by
  rcases h.effect with ⟨_, _, _, rfl⟩ | ⟨_, -, rfl⟩ | ⟨ra, rb, hi, rfl⟩ | ⟨-, rfl⟩
  · exact .inl rfl
  · exact .inl rfl
  · exact .inr ⟨rfl, ra, rb, hi⟩
  · exact .inl rfl

/-- Only a PRN of a register can write the output. -/
theorem Completes.out_eq_or_prn {i : Instr} {s t : State} (h : Completes i s t) :
    t.out = s.out ∨ ∃ ra, i = .prn (regByte ra) := by
  rcases h.effect with ⟨_, _, _, rfl⟩ | ⟨ra, hi, -⟩ | ⟨_, _, -, rfl⟩ | ⟨-, rfl⟩
  · exact .inl rfl
  · exact .inr ⟨ra, hi⟩
  · exact .inl rfl
  · exact .inl rfl

/-! ## Updates that no instruction sees -/

/-- `f` changes nothing that a step of an instruction other than CMP reads, and it commutes with every update such a step
makes. CMP's update, of all three flags, is left out: an `f` that writes a flag does not commute with it. -/
structure Unread (f : State → State) : Prop where
  config_eq : ∀ s, (f s).config = s.config
  imageLen_eq : ∀ s, (f s).imageLen = s.imageLen
  mem_eq : ∀ s, (f s).mem = s.mem
  pc_eq : ∀ s, (f s).pc = s.pc
  run_eq : ∀ s, (f s).run = s.run
  flagEq_eq : ∀ s, (f s).flags.eq = s.flags.eq
  readReg_eq : ∀ s r, readReg (f s) r = readReg s r
  writeReg_comm : ∀ s r v, writeReg (f s) r v = f (writeReg s r v)
  setMem_comm : ∀ s m, setMem (f s) m = f (setMem s m)
  setPc_comm : ∀ s p, setPc (f s) p = f (setPc s p)
  emit_comm : ∀ s v, emit (f s) v = f (emit s v)
  setHalted_comm : ∀ s, setHalted (f s) = f (setHalted s)
  raiseFault_comm : ∀ k op s, raiseFault k op (f s) = f (raiseFault k op s)

/-- LT and GT overwritten. -/
def withLtGt (l g : Bool) (s : State) : State := { s with flags := ⟨s.flags.eq, l, g⟩ }

/-- More output emitted before. -/
def withEarlierOut (earlier : List Byte) (s : State) : State := { s with out := earlier ++ s.out }

theorem unread_withLtGt (l g : Bool) : Unread (withLtGt l g) := by
  constructor <;> intros <;> rfl

theorem withEarlierOut_emit (earlier : List Byte) (s : State) (v : Byte) :
    emit (withEarlierOut earlier s) v = withEarlierOut earlier (emit s v) := by
  simp [emit, withEarlierOut]

theorem unread_withEarlierOut (earlier : List Byte) : Unread (withEarlierOut earlier) := by
  constructor
  case emit_comm => exact withEarlierOut_emit earlier
  all_goals intros; rfl

/-- A rule over one register that commutes with `f` still does so behind the check of its index. -/
theorem withReg_map {f : State → State} {rule rule' : RegIdx → RuleResult} (a : Byte)
    (h : ∀ r, rule' r = (rule r).map f) : withReg a rule' = (withReg a rule).map f := by
  rcases regIndex_cases a with ⟨r, rfl, -⟩ | ⟨ha, -⟩
  · simp [h]
  · rw [withReg_of_ge ha, withReg_of_ge ha]; rfl

theorem withRegs_map {f : State → State} {rule rule' : RegIdx → RegIdx → RuleResult} (a b : Byte)
    (h : ∀ ra rb, rule' ra rb = (rule ra rb).map f) : withRegs a b rule' = (withRegs a b rule).map f :=
  withReg_map a fun ra => withReg_map b (h ra)

namespace Unread

variable {f : State → State} (hf : Unread f)
include hf

theorem sp_eq (s : State) : sp (f s) = sp s := hf.readReg_eq s spIdx

theorem advance_comm (m : Mnemonic) (s : State) : advance m (f s) = f (advance m s) := by
  simp [advance, hf.pc_eq, hf.setPc_comm]

theorem decSp_comm (s : State) : decSp (f s) = f (decSp s) := by
  simp [decSp, hf.sp_eq, hf.writeReg_comm]

theorem incSp_comm (s : State) : incSp (f s) = f (incSp s) := by
  simp [incSp, hf.sp_eq, hf.writeReg_comm]

theorem beginPush_comm (s : State) : beginPush (f s) = (beginPush s).map f := by
  unfold beginPush
  rw [hf.config_eq, hf.imageLen_eq, hf.sp_eq]
  cases checkPush s.config s.imageLen (sp s) with
  | ok _ => simp [hf.decSp_comm, Except.map]
  | error _ => rfl

theorem popByte_eq (s : State) : popByte (f s) = popByte s := by
  simp [popByte, hf.config_eq, hf.imageLen_eq, hf.sp_eq, hf.mem_eq]

theorem writeAlu_comm (m : Mnemonic) (r : RegIdx) (s : State) (e : Except FaultKind Byte) :
    writeAlu m r (f s) e = (writeAlu m r s e).map f := by
  cases e with
  | ok v => simp [writeAlu, hf.writeReg_comm, hf.advance_comm, Except.map]
  | error k => rfl

/-- An instruction whose rule commutes with `f` commutes with `f`. -/
theorem finish_comm (m : Mnemonic) (s : State) {rule rule' : RuleResult} (h : rule' = rule.map f) :
    finish m (f s) rule' = mapNext f (finish m s rule) := by
  subst h
  cases rule with
  | ok t => rfl
  | error k => simp [Except.map, mapNext, hf.config_eq, hf.raiseFault_comm]

theorem aluBinary_comm (op : AluOp) (m : Mnemonic) (a b : Byte) (s : State) :
    aluBinary op m a b (f s) = mapNext f (aluBinary op m a b s) :=
  hf.finish_comm m s <| withRegs_map a b fun ra rb => by simp only [hf.readReg_eq, hf.writeAlu_comm]

theorem execNot_comm (a : Byte) (s : State) : execNot a (f s) = mapNext f (execNot a s) :=
  hf.finish_comm .not s <| withReg_map a fun ra => by simp only [hf.readReg_eq, hf.writeAlu_comm]

theorem execLdi_comm (a imm : Byte) (s : State) : execLdi a imm (f s) = mapNext f (execLdi a imm s) :=
  hf.finish_comm .ldi s <| withReg_map a fun ra => by simp [hf.writeReg_comm, hf.advance_comm, Except.map]

theorem execPrn_comm (a : Byte) (s : State) : execPrn a (f s) = mapNext f (execPrn a s) :=
  hf.finish_comm .prn s <| withReg_map a fun ra => by
    simp [hf.readReg_eq, hf.emit_comm, hf.advance_comm, Except.map]

theorem jumpIf_comm (taken : Bool) (m : Mnemonic) (a : Byte) (s : State) :
    jumpIf taken m a (f s) = mapNext f (jumpIf taken m a s) :=
  hf.finish_comm m s <| withReg_map a fun ra => by
    cases taken <;> simp [hf.readReg_eq, hf.setPc_comm, hf.advance_comm, Except.map]

theorem execPush_comm (a : Byte) (s : State) : execPush a (f s) = mapNext f (execPush a s) :=
  hf.finish_comm .push s <| withReg_map a fun ra => by
    rw [hf.beginPush_comm]
    cases beginPush s with
    | ok t => simp [hf.readReg_eq, hf.mem_eq, hf.sp_eq, hf.setMem_comm, hf.advance_comm, Except.map]
    | error k => rfl

theorem execPop_comm (a : Byte) (s : State) : execPop a (f s) = mapNext f (execPop a s) :=
  hf.finish_comm .pop s <| withReg_map a fun ra => by
    rw [hf.popByte_eq]
    cases popByte s with
    | ok v => simp [hf.writeReg_comm, hf.incSp_comm, hf.advance_comm, Except.map]
    | error k => rfl

theorem execCall_comm (a : Byte) (s : State) : execCall a (f s) = mapNext f (execCall a s) :=
  hf.finish_comm .call s <| withReg_map a fun ra => by
    rw [hf.pc_eq, hf.beginPush_comm]
    cases returnByte (s.pc + lengthOf .call) with
    | error k => rfl
    | ok ret =>
      cases beginPush s with
      | ok t => simp [hf.readReg_eq, hf.mem_eq, hf.sp_eq, hf.setMem_comm, hf.setPc_comm, Except.map]
      | error k => rfl

theorem execRet_comm (s : State) : execRet (f s) = mapNext f (execRet s) :=
  hf.finish_comm .ret s <| by
    rw [hf.popByte_eq]
    cases popByte s with
    | ok v => simp [hf.setPc_comm, hf.incSp_comm, Except.map]
    | error k => rfl

theorem execHlt_comm (s : State) : execHlt (f s) = mapNext f (execHlt s) :=
  hf.finish_comm .hlt s <| by rw [hf.setHalted_comm, hf.advance_comm]; rfl

/-- Every instruction but CMP does the same before and after `f`. -/
theorem exec_comm {i : Instr} (hi : ∀ a b, i ≠ .cmp a b) (s : State) : exec i (f s) = mapNext f (exec i s) := by
  cases i with
  | cmp a b => exact absurd rfl (hi a b)
  | add a b | sub a b | mul a b | div a b | mod a b | and a b | or a b | xor a b | shl a b | shr a b =>
    exact hf.aluBinary_comm _ _ a b s
  | ldi a imm => exact hf.execLdi_comm a imm s
  | prn a => exact hf.execPrn_comm a s
  | not a => exact hf.execNot_comm a s
  | push a => exact hf.execPush_comm a s
  | pop a => exact hf.execPop_comm a s
  | call a => exact hf.execCall_comm a s
  | ret => exact hf.execRet_comm s
  | jmp a => exact hf.jumpIf_comm true .jmp a s
  | jeq a => simpa only [exec, execJeq, hf.flagEq_eq] using hf.jumpIf_comm s.flags.eq .jeq a s
  | jne a => simpa only [exec, execJne, hf.flagEq_eq] using hf.jumpIf_comm (!s.flags.eq) .jne a s
  | hlt => exact hf.execHlt_comm s

/-- A step does the same before and after `f`, once CMP does. -/
theorem step_comm (hcmp : ∀ a b s, exec (.cmp a b) (f s) = mapNext f (exec (.cmp a b) s)) (s : State) :
    step (f s) = mapNext f (step s) := by
  have hexec (i : Instr) : exec i (f s) = mapNext f (exec i s) := by
    by_cases hi : ∃ a b, i = .cmp a b
    · obtain ⟨a, b, rfl⟩ := hi
      exact hcmp a b s
    · exact hf.exec_comm (fun a b h => hi ⟨a, b, h⟩) s
  unfold step fetchDecode
  rw [hf.run_eq, hf.config_eq, hf.mem_eq, hf.pc_eq]
  cases noStep s.run with
  | some r => rfl
  | none =>
    cases decode s.config (fetchWindow s.mem s.pc) with
    | ok r => exact hexec r.1
    | error e => exact congrArg Host.Outcome.next (hf.raiseFault_comm _ _ s)

end Unread

/-- CMP does not read the output. -/
theorem exec_cmp_withEarlierOut (earlier : List Byte) (a b : Byte) (s : State) :
    exec (.cmp a b) (withEarlierOut earlier s) = mapNext (withEarlierOut earlier) (exec (.cmp a b) s) :=
  (unread_withEarlierOut earlier).finish_comm .cmp s <| withRegs_map a b fun _ _ => rfl

/-! ## A byte that names no register -/

/-- An instruction of one register operand faults on a bad index whatever its rule is (10_state.md R22). -/
theorem finish_withReg_of_ge {a : Byte} (h : 8 ≤ a.toNat) (m : Mnemonic) (s : State) (rule : RegIdx → RuleResult) :
    finish m s (withReg a rule) = .next (raiseFault .outOfBounds (some (opcodeOf s.config m)) s) := by
  rw [withReg_of_ge h, finish_error]

/-- An instruction of two register operands faults on a bad index whatever its rule is (10_state.md R22). -/
theorem finish_withRegs_of_ge {a b : Byte} (h : 8 ≤ a.toNat ∨ 8 ≤ b.toNat) (m : Mnemonic) (s : State)
    (rule : RegIdx → RegIdx → RuleResult) :
    finish m s (withRegs a b rule) = .next (raiseFault .outOfBounds (some (opcodeOf s.config m)) s) := by
  rw [withRegs_of_ge h, finish_error]

/-! ## CMP and the jumps, on registers -/

/-- CMP of two registers writes all three flags, from the registers alone (44_compare.md R160). -/
theorem exec_cmp_regByte (ra rb : RegIdx) (s : State) :
    exec (.cmp (regByte ra) (regByte rb)) s =
      .next (advance .cmp (setFlags s (compareFlags (readReg s ra) (readReg s rb)))) := by
  simp [exec, execCmp]

/-- A jump through a register that names one (45_jump.md R170 to R172). -/
theorem jumpIf_regByte (taken : Bool) (m : Mnemonic) (r : RegIdx) (s : State) :
    jumpIf taken m (regByte r) s = .next (if taken then setPc s (readReg s r).toNat else advance m s) := by
  simp [jumpIf]

/-! ## The obligations -/

/-- Settles O18. A completing instruction that is no CMP leaves the flags, and a fault is taken in the state the instruction
began in; JEQ and JNE go to different addresses by EQ; and overwriting LT and GT is an update no instruction sees. -/
theorem onlyCmpWritesFlagsAndOnlyEqIsRead : Obligations.OnlyCmpWritesFlagsAndOnlyEqIsRead := by
  refine ⟨fun i s t h hne => ?_, fun s t h hrun => ?_, fun ra rb s f => ?_, fun ra s l g hpc => ⟨?_, ?_⟩,
    fun i s l g hi => (unread_withLtGt l g).exec_comm hi s, fun _ => rfl⟩
  · rcases exec_eq_next h with hc | ⟨_, rfl⟩
    · exact (hc.flags_eq_or_cmp.resolve_left hne).2
    · exact absurd rfl hne
  · obtain ⟨hr, ⟨i, _, -, h⟩ | ⟨_, rfl⟩⟩ := step_eq_next h
    · rcases exec_eq_next h with hc | ⟨_, rfl⟩
      · rcases hc.flags_eq_or_cmp with hfl | ⟨hrun', -⟩
        · exact hfl
        · rw [hrun', hr] at hrun
          exact absurd hrun (by decide)
      · rfl
    · rfl
  · exact (exec_cmp_regByte ra rb _).trans (exec_cmp_regByte ra rb s).symm
  · intro h
    rw [exec, exec, execJeq, execJeq, jumpIf_regByte, jumpIf_regByte] at h
    have htarget : (readReg s ra).toNat = s.pc + 2 := congrArg State.pc (Host.Outcome.next.inj h)
    exact hpc htarget
  · intro h
    rw [exec, exec, execJne, execJne, jumpIf_regByte, jumpIf_regByte] at h
    have htarget : s.pc + 2 = (readReg s ra).toNat := congrArg State.pc (Host.Outcome.next.inj h)
    exact hpc htarget.symm

/-- Settles O19. A completing instruction that is no PRN of a register leaves the output, and so does a fault; and emitting
more before is an update no step sees. -/
theorem outputIsWrittenOnlyByPrn : Obligations.OutputIsWrittenOnlyByPrn := by
  refine ⟨rfl, fun ra s => ⟨advance .prn (emit s (readReg s ra)), by simp [exec, execPrn], rfl⟩, fun i s t hi h => ?_,
    fun s earlier => (unread_withEarlierOut earlier).step_comm (exec_cmp_withEarlierOut earlier) s⟩
  rcases exec_eq_next h with hc | ⟨_, rfl⟩
  · exact hc.out_eq_or_prn.resolve_right fun ⟨ra, he⟩ => hi ra he
  · rfl

/-- Settles O20, by what each instruction does when it completes. -/
theorem pcAdvancesOrIsAssigned : Obligations.PcAdvancesOrIsAssigned := by
  intro i s t _ h hrun
  rcases exec_eq_next h with hc | ⟨_, rfl⟩
  case inr => exact absurd rfl hrun
  clear h
  cases i with
  | ldi a _ | prn a | not a =>
    obtain ⟨_, -, rfl⟩ := hc
    rfl
  | add a b | sub a b | mul a b | div a b | mod a b | and a b | or a b | xor a b | shl a b | shr a b =>
    obtain ⟨_, _, _, -, -, -, rfl⟩ := hc
    rfl
  | cmp a b =>
    obtain ⟨_, _, -, -, rfl⟩ := hc
    rfl
  | push a | pop a =>
    obtain ⟨_, -, -, rfl⟩ := hc
    rfl
  | hlt => exact congrArg State.pc hc
  | call a =>
    obtain ⟨r, ha, -, -, rfl⟩ := hc
    exact ⟨r, ha, rfl⟩
  | ret =>
    obtain ⟨-, rfl⟩ := hc
    exact ⟨by simp [memRead_byte], (cellAt s.mem (sp s).toNat).isLt⟩
  | jmp a =>
    obtain ⟨r, ha, rfl⟩ := hc
    exact ⟨r, ha, rfl⟩
  | jeq a | jne a =>
    obtain ⟨r, ha, rfl⟩ := hc
    exact ⟨r, ha, by cases s.flags.eq <;> rfl⟩

/-- Settles O21. The operand check stands before every rule, so a bad index makes the instruction's rule OutOfBounds. -/
theorem badRegisterIndexFaults : Obligations.BadRegisterIndexFaults := by
  refine ⟨fun a b s h i hi => ?_, fun a s h i hi => ?_,
    fun a imm s h => ⟨_, finish_withReg_of_ge h .ldi s _, rfl⟩,
    fun ra imm s => ⟨advance .ldi (writeReg s ra imm), by simp [exec, execLdi], by simp, rfl⟩⟩
  · simp only [List.mem_cons, List.not_mem_nil, or_false] at hi
    rcases hi with rfl | rfl | rfl | rfl | rfl | rfl | rfl | rfl | rfl | rfl | rfl <;>
      exact ⟨_, finish_withRegs_of_ge h _ s _, rfl⟩
  · simp only [List.mem_cons, List.not_mem_nil, or_false] at hi
    rcases hi with rfl | rfl | rfl | rfl | rfl | rfl | rfl | rfl <;>
      exact ⟨_, finish_withReg_of_ge h _ s _, rfl⟩

end Sys2Proof.Machine
end

section
/-! SUPPORT. The proof of the obligation on the memory primitives (20_memory.md R51). -/

namespace Sys2Proof.Machine

/-- A write fails exactly outside memory (20_memory.md R51). -/
theorem memWrite_eq_none_iff (m : Memory) (a : Nat) (v : Byte) : memWrite m a v = none ↔ 256 ≤ a := by
  rcases Nat.lt_or_ge a 256 with ha | ha
  · simp [memWrite_of_lt m v ha, ha]
  · simp [memWrite, ha]

/-- Settles O5. Both primitives test the address alone, and a write that answers has set one cell inside memory. -/
theorem memoryPrimitives : Obligations.MemoryPrimitives := by
  refine fun m a v => ⟨memRead_eq_none_iff m a, memWrite_eq_none_iff m a v, fun m' h => ?_⟩
  obtain ⟨ha, rfl⟩ := memWrite_eq_some h
  refine ⟨?_, fun b hb => ?_⟩
  · rw [memRead_setCell m a v ha, if_pos rfl]
  · rw [memRead_setCell m b v ha, if_neg hb]

end Sys2Proof.Machine
end

section
/-! SUPPORT. The proofs of the obligations on the fixed opcode bytes (30_encoding.md R76) and on the run states without a
step (30_encoding.md R83). -/

namespace Sys2Proof

/-- The converse of `decode_eq_ok`: a byte that selects a row, before that row's operand bytes, decodes. -/
theorem decode_of_mnemonicOf {c : Config} {op : Byte} {m : Mnemonic} {bs : List Byte} {r : Instr × List Byte}
    (hm : mnemonicOf c op = some m) (hd : decodeOperands m bs = some r) : decode c (op :: bs) = .ok r := by
  simp [decode, hm, hd]

/-- A row of fixed opcode decodes behind its byte in every configuration, a dispatch table or not. -/
theorem decode_fixed (c : Config) {m : Mnemonic} {bs : List Byte} {r : Instr × List Byte}
    (h : m ∈ [Mnemonic.ldi, .prn, .add, .hlt]) (hd : decodeOperands m bs = some r) :
    decode c (opcodeOf c m :: bs) = .ok r :=
  decode_of_mnemonicOf (mnemonicOf_fixed c h) hd

/-- Settles O3. The byte selects its row whatever the other 18 bytes are, and the row reads the operand bytes after it. -/
theorem sourceOpcodesAreFixed : Obligations.SourceOpcodesAreFixed := fun c _ _ _ =>
  ⟨decode_fixed c (m := .ldi) (by decide) rfl, decode_fixed c (m := .add) (by decide) rfl,
    decode_fixed c (m := .prn) (by decide) rfl, decode_fixed c (m := .hlt) (by decide) rfl⟩

namespace Machine

/-- Settles O14. A step that answers a next state began in a running one. -/
theorem noStepOutsideRunning : Obligations.NoStepOutsideRunning := by
  intro s t hs h
  obtain ⟨hrun, -⟩ := step_eq_next h
  rw [hrun] at hs
  rcases hs with hs | hs | hs <;> cases hs

end Machine

end Sys2Proof
end

section
/-! SUPPORT. A step seen from the bytes at the program counter (30_encoding.md R80, R82), and the proofs of the obligations
on LDI and PRN (40_load_output.md R100, R101). -/

namespace Sys2Proof

theorem twoOperands_of_short {mk : Byte → Byte → Instr} {bs : List Byte} (h : bs.length < 2) :
    twoOperands mk bs = none := by
  match bs, h with
  | [], _ => rfl
  | [_], _ => rfl

/-- Fewer bytes than the row's operands are no instruction of that row (30_encoding.md R82). -/
theorem decodeOperands_of_short {m : Mnemonic} {bs : List Byte} (h : bs.length + 1 < lengthOf m) :
    decodeOperands m bs = none := by
  have hlt {n : Nat} (hn : lengthOf m = n + 1) : bs.length < n := by omega
  cases m with
  | ret | hlt => exact absurd (hlt rfl) (Nat.not_lt_zero _)
  | prn | not | push | pop | call | jmp | jeq | jne =>
    rw [List.length_eq_zero_iff.mp (Nat.lt_one_iff.mp (hlt rfl))]
    rfl
  | ldi | add | sub | mul | div | mod | and | or | xor | shl | shr | cmp => exact twoOperands_of_short (hlt rfl)

namespace Machine

/-! ## The step by the bytes at the program counter -/

/-- The window begins with the byte at the program counter, where there is one. -/
theorem fetchWindow_of_memRead {m : Memory} {p : Nat} {op : Byte} (h : memRead m p = some op) :
    fetchWindow m p = op :: [p + 1, p + 2].filterMap (memRead m) :=
  List.filterMap_cons_some h

/-- The window holds no byte from outside memory. -/
theorem fetchWindow_length_le (m : Memory) (p : Nat) : (fetchWindow m p).length ≤ 256 - p := by
  rcases Nat.lt_or_ge (p + 2) 256 with h2 | h2
  · have h3 : (fetchWindow m p).length ≤ 3 := List.length_filterMap_le _ _
    omega
  · have e2 : memRead m (p + 2) = none := (memRead_eq_none_iff m _).mpr h2
    rcases Nat.lt_or_ge p 256 with h0 | h0
    · rw [fetchWindow_of_lt m h0]
      rcases Nat.lt_or_ge (p + 1) 256 with h1 | h1
      · simp [memRead_of_lt m h1, e2]
        omega
      · simp [(memRead_eq_none_iff m _).mpr h1, e2]
        omega
    · simp [fetchWindow_of_ge m h0]

/-- A running machine whose program counter stands on the opcode of row `m`, its operand bytes after it, runs that
instruction. -/
theorem step_of_operands {s : State} {op : Byte} {m : Mnemonic} {i : Instr} {rest : List Byte} (hrun : s.run = .running)
    (hop : memRead s.mem s.pc = some op) (hm : mnemonicOf s.config op = some m)
    (hd : decodeOperands m ([s.pc + 1, s.pc + 2].filterMap (memRead s.mem)) = some (i, rest)) : step s = exec i s := by
  rw [step_of_running hrun, fetchWindow_of_memRead hop, decode_of_mnemonicOf hm hd]

/-- An operand byte outside memory makes the step OutOfBounds, with the opcode (30_encoding.md R82). -/
theorem step_of_operand_outside {s : State} {op : Byte} {m : Mnemonic} (hrun : s.run = .running)
    (hop : memRead s.mem s.pc = some op) (hm : mnemonicOf s.config op = some m) (hout : 256 < s.pc + lengthOf m) :
    step s = .next (raiseFault .outOfBounds (some op) s) := by
  have hwindow := fetchWindow_of_memRead hop
  have hshort : decodeOperands m ([s.pc + 1, s.pc + 2].filterMap (memRead s.mem)) = none := by
    refine decodeOperands_of_short ?_
    have hle := fetchWindow_length_le s.mem s.pc
    rw [hwindow, List.length_cons] at hle
    omega
  have hdecode : decode s.config (fetchWindow s.mem s.pc) = .error (.missingOperand op) := by
    simp only [hwindow, decode, hm, hshort]
  rw [step_of_running hrun, hdecode]
  rfl

/-! ## LDI and PRN, on registers -/

/-- A register written and the row's advance, and the frame of the two. -/
theorem writesReg_advance_writeReg (m : Mnemonic) (s : State) (r : RegIdx) (v : Byte) :
    WritesReg s (advance m (writeReg s r v)) r v.toNat (lengthOf m) :=
  ⟨by simp, fun k hk => by simp [readReg_writeReg_other s v hk], rfl, ⟨rfl, rfl, rfl, rfl, rfl, rfl⟩, fun _ => rfl⟩

theorem exec_ldi_regByte (ra : RegIdx) (imm : Byte) (s : State) :
    exec (.ldi (regByte ra) imm) s = .next (advance .ldi (writeReg s ra imm)) := by
  simp [exec, execLdi]

theorem exec_prn_regByte (ra : RegIdx) (s : State) :
    exec (.prn (regByte ra)) s = .next (advance .prn (emit s (readReg s ra))) := by
  simp [exec, execPrn]

/-! ## The obligations -/

/-- Settles O25. The byte 82 selects LDI in every configuration; two operand bytes follow it, or the fetch takes the
fault. -/
theorem ldiLoadsItsImmediate : Obligations.LdiLoadsItsImmediate := by
  have hrow (c : Config) : mnemonicOf c 0x82 = some .ldi := mnemonicOf_fixed c (m := .ldi) (by decide)
  refine ⟨fun ra imm s => ⟨_, exec_ldi_regByte ra imm s, writesReg_advance_writeReg .ldi s ra imm⟩,
    fun s a imm hrun hop ha himm => step_of_operands (rest := []) hrun hop (hrow _) ?_,
    fun a imm s h => ⟨_, finish_withReg_of_ge h .ldi s _, rfl⟩,
    fun s hrun hop hout => ⟨_, step_of_operand_outside hrun hop (hrow _) (Nat.lt_succ_of_le hout), rfl⟩⟩
  rw [List.filterMap_cons_some ha, List.filterMap_cons_some himm]
  rfl

/-- Settles O26. The byte 47 selects PRN in every configuration; one operand byte follows it, and whatever stands after that
is not read, or the fetch takes the fault. -/
theorem prnEmitsItsRegister : Obligations.PrnEmitsItsRegister := by
  have hrow (c : Config) : mnemonicOf c 0x47 = some .prn := mnemonicOf_fixed c (m := .prn) (by decide)
  refine ⟨fun ra s => ⟨_, exec_prn_regByte ra s, rfl, rfl, rfl, rfl, rfl, rfl, rfl, fun _ => rfl, fun _ => rfl⟩,
    fun s a hrun hop ha => step_of_operands (rest := [s.pc + 2].filterMap (memRead s.mem)) hrun hop (hrow _) ?_,
    fun a s h => ⟨_, finish_withReg_of_ge h .prn s _, rfl⟩,
    fun s hrun hop hout => ⟨_, step_of_operand_outside hrun hop (hrow _) (Nat.lt_succ_of_le hout), rfl⟩⟩
  rw [List.filterMap_cons_some ha]
  rfl

end Machine

end Sys2Proof
end

section
/-! SUPPORT. The binary ALU form on registers, and the proof of the obligation on it (41_alu.md R107). -/

namespace Sys2Proof.Machine

/-- Where the ALU gives a value, the binary form writes it to regA and advances. -/
theorem aluBinary_of_ok {op : AluOp} {ra rb : RegIdx} {s : State} {v : Byte}
    (h : alu op (readReg s ra) (readReg s rb) = .ok v) (m : Mnemonic) :
    aluBinary op m (regByte ra) (regByte rb) s = .next (advance m (writeReg s ra v)) := by
  rw [aluBinary_regs, h, writeAlu, finish_ok]

/-- The binary form's effect and frame, for a row of three bytes. -/
theorem aluBinary_writesReg {op : AluOp} {m : Mnemonic} (hm : lengthOf m = 3) {ra rb : RegIdx} {s : State} {v : Byte}
    (h : alu op (readReg s ra) (readReg s rb) = .ok v) :
    ∃ t, aluBinary op m (regByte ra) (regByte rb) s = .next t ∧ WritesReg s t ra v.toNat 3 :=
  ⟨_, aluBinary_of_ok h m, hm ▸ writesReg_advance_writeReg m s ra v⟩

/-- Settles O28. Each of the ten instructions is the binary form of its operation, on a row of three bytes. -/
theorem aluBinaryForm : Obligations.AluBinaryForm := by
  intro p hp ra rb s v h
  simp only [List.mem_cons, List.not_mem_nil, or_false] at hp
  rcases hp with rfl | rfl | rfl | rfl | rfl | rfl | rfl | rfl | rfl | rfl <;>
    exact aluBinary_writesReg rfl h

end Sys2Proof.Machine
end

section
/-! SUPPORT. The flags after an instruction, and the proof of the obligation on them (44_compare.md R160, R161). -/

namespace Sys2Proof.Machine

/-- Every instruction but CMP keeps the flags, whether it completes or takes its fault (44_compare.md R161). -/
theorem exec_flags_of_ne_cmp {i : Instr} {s t : State} (hi : ∀ a b, i ≠ .cmp a b) (h : exec i s = .next t) :
    t.flags = s.flags := by
  rcases exec_eq_next h with hc | ⟨_, rfl⟩
  · exact hc.flags_eq_or_cmp.resolve_right fun ⟨_, _, _, he⟩ => hi _ _ he
  · rfl

/-- CMP of two registers leaves the comparison of the bytes they hold (44_compare.md R160). -/
theorem exec_cmp_flags {ra rb : RegIdx} {s : State} {u v : Byte} (hu : readReg s ra = u) (hv : readReg s rb = v) :
    ∃ t, exec (.cmp (regByte ra) (regByte rb)) s = .next t ∧ t.flags = compareFlags u v :=
  ⟨_, exec_cmp_regByte ra rb s, by rw [advance_flags, setFlags_flags, hu, hv]⟩

/-- Settles O17. Only CMP writes the flags, and the source's two compares are `compareFlags` of 5 and 5, and of 3 and 5. -/
theorem flagsPersistBetweenCompares : Obligations.FlagsPersistBetweenCompares := by
  have h55 : compareFlags 5 5 = ⟨true, false, false⟩ := by decide
  have h35 : compareFlags 3 5 = ⟨false, true, false⟩ := by decide
  exact ⟨fun _ _ _ => exec_flags_of_ne_cmp, fun _ _ _ ha hb => h55 ▸ exec_cmp_flags ha hb,
    fun _ _ _ ha hb => h35 ▸ exec_cmp_flags ha hb⟩

end Sys2Proof.Machine
end

section
/-! SUPPORT. HLT, and the proof of the obligation on it (46_halt.md R180). -/

namespace Sys2Proof.Machine

/-- HLT completes in every state, with no check that could fail (46_halt.md R180). -/
theorem exec_hlt (s : State) : exec .hlt s = .next (advance .hlt (setHalted s)) := by
  rw [exec, execHlt, finish_ok]

/-- Settles O36. HLT is the row's advance after the run state is written, in which state there is no step; and the byte 01
selects it in every configuration and needs no byte after it. -/
theorem hltHalts : Obligations.HltHalts := by
  have hrow (c : Config) : mnemonicOf c 0x01 = some .hlt := mnemonicOf_fixed c (m := .hlt) (by decide)
  have hstop (s u : State) : step (advance .hlt (setHalted s)) ≠ .next u :=
    noStepOutsideRunning _ u (.inr (.inl rfl))
  exact ⟨fun s => ⟨_, exec_hlt s, rfl, rfl, rfl, rfl, rfl, rfl, rfl, fun _ => rfl, fun _ => rfl, hstop s⟩,
    fun s hrun hop => step_of_operands hrun hop (hrow _) rfl⟩

end Sys2Proof.Machine
end

section
/-! SUPPORT. Which instruction a fetch gives, by the byte at the program counter, what a step does to the run state, and the
proofs of the obligations on the run-state machine and on fault entry (60_exceptions.md R206, R207). -/

namespace Sys2Proof

/-- The operand bytes of a row make an instruction of that row. -/
theorem mnemonic_of_decodeOperands {m : Mnemonic} {bs rest : List Byte} {i : Instr}
    (h : decodeOperands m bs = some (i, rest)) : i.mnemonic = m := by
  cases m with
  | ret | hlt =>
    cases h
    rfl
  | prn | not | push | pop | call | jmp | jeq | jne =>
    obtain ⟨_, -, rfl⟩ := oneOperand_eq_some h
    rfl
  | ldi | add | sub | mul | div | mod | and | or | xor | shl | shr | cmp =>
    obtain ⟨_, _, -, rfl⟩ := twoOperands_eq_some h
    rfl

namespace Machine

/-- The byte at the program counter is the opcode of the fetched instruction's row, in every configuration. -/
theorem memRead_of_decode {c : Config} {m : Memory} {p : Nat} {i : Instr} {rest : List Byte}
    (h : decode c (fetchWindow m p) = .ok (i, rest)) : memRead m p = some (opcodeOf c i.mnemonic) := by
  obtain ⟨op, tail, row, hwindow, hrow, hoperands⟩ := decode_eq_ok h
  rw [mnemonic_of_decodeOperands hoperands, opcodeOf_of_mnemonicOf hrow]
  rcases Nat.lt_or_ge p 256 with hp | hp
  · rw [fetchWindow_of_lt m hp] at hwindow
    rw [memRead_of_lt m hp, (List.cons.inj hwindow).1]
  · rw [fetchWindow_of_ge m hp] at hwindow
    cases hwindow

/-- Only HLT writes the run state when it completes (46_halt.md R180). -/
theorem Completes.run_eq_or_hlt {i : Instr} {s t : State} (h : Completes i s t) :
    t.run = s.run ∨ i = .hlt ∧ t.run = .halted := by
  rcases h.effect with ⟨_, _, _, rfl⟩ | ⟨_, -, rfl⟩ | ⟨_, _, -, rfl⟩ | ⟨hi, rfl⟩
  · exact .inl rfl
  · exact .inl rfl
  · exact .inl rfl
  · exact .inr ⟨hi, rfl⟩

/-- Everything a step can do to the run state: it stays, HLT halts the machine, or a fault is taken, recorded with the byte
at the program counter (60_exceptions.md R206, R207). -/
theorem step_run_cases {s t : State} (h : step s = .next t) :
    t.run = .running ∨ (t.run = .halted ∧ memRead s.mem s.pc = some 0x01) ∨
      ∃ k, t = raiseFault k (memRead s.mem s.pc) s := by
  obtain ⟨hrun, ⟨i, rest, hdecode, hexec⟩ | hfetch⟩ := step_eq_next h
  · have hop := memRead_of_decode hdecode
    rcases exec_eq_next hexec with hc | ⟨k, hk⟩
    · rcases hc.run_eq_or_hlt with hkept | ⟨rfl, hhalted⟩
      · exact .inl (hkept.trans hrun)
      · exact .inr (.inl ⟨hhalted, hop⟩)
    · exact .inr (.inr ⟨k, hop ▸ hk⟩)
  · exact .inr (.inr hfetch)

/-- A running machine always steps (60_exceptions.md R206). -/
theorem step_total {s : State} (h : s.run = .running) : ∃ t, step s = .next t := by
  rw [step_of_running h]
  cases decode s.config (fetchWindow s.mem s.pc) with
  | ok r => exact exec_total r.1 s
  | error e => exact ⟨_, rfl⟩

/-- A running machine on the byte 01 halts. -/
theorem step_of_hlt_byte {s t : State} (hrun : s.run = .running) (hop : memRead s.mem s.pc = some 0x01)
    (h : step s = .next t) : t.run = .halted := by
  rw [hltHalts.2 s hrun hop, exec_hlt] at h
  rw [← Host.Outcome.next.inj h, advance_run, setHalted_run]

/-- Settles O16. A step that ends Faulted is the third case of what a step does to the run state, and there the next state is
fault entry itself. -/
theorem faultEntryWritesOnlyTheRecord : Obligations.FaultEntryWritesOnlyTheRecord := by
  intro s t h hfaulted
  rcases step_run_cases h with hrun | ⟨hrun, -⟩ | hfault
  · cases hrun.symm.trans hfaulted
  · cases hrun.symm.trans hfaulted
  · exact hfault

/-- Settles O15. Each transition out of Running is one case of what a step does to the run state; the byte 01 gives HLT, and
fault entry gives Faulted, so both are exact. -/
theorem runStateMachine : Obligations.RunStateMachine := by
  refine ⟨fun h hidle => if_pos hidle, fun s hrun => ?_, fun s t hs => noStepOutsideRunning s t (.inr hs)⟩
  obtain ⟨t, hstep⟩ := step_total hrun
  refine ⟨t, hstep, ?_, ⟨fun hhalted => ?_, fun hop => step_of_hlt_byte hrun hop hstep⟩, fun hfaulted => ?_, ?_⟩
  · rcases step_run_cases hstep with h | ⟨h, -⟩ | ⟨_, rfl⟩
    · exact .inr (.inr h)
    · exact .inl h
    · exact .inr (.inl rfl)
  · rcases step_run_cases hstep with h | ⟨-, hop⟩ | ⟨_, rfl⟩
    · cases h.symm.trans hhalted
    · exact hop
    · cases hhalted
  · exact (faultEntryWritesOnlyTheRecord s t hstep hfaulted).imp fun _ h => ⟨_, h⟩
  · rintro ⟨k, op, rfl⟩
    rfl

end Machine

end Sys2Proof
end

section
/-! SUPPORT. The decoder and the encoder as inverses of each other, and the proofs of the obligations on the two round
trips and on one word of each family (30_encoding.md sections 1 and 2). -/

namespace Sys2Proof

/-- A row reads back the operand bytes of its instruction, and no byte more. -/
theorem decodeOperands_operandBytes (i : Instr) (rest : List Byte) :
    decodeOperands i.mnemonic (operandBytes i ++ rest) = some (i, rest) := by
  cases i <;> rfl

/-- The operand bytes of the instruction a row read are the bytes it took. -/
theorem operandBytes_of_decodeOperands {m : Mnemonic} {bs rest : List Byte} {i : Instr}
    (h : decodeOperands m bs = some (i, rest)) : operandBytes i ++ rest = bs := by
  cases m with
  | ret | hlt =>
    cases h
    rfl
  | prn | not | push | pop | call | jmp | jeq | jne =>
    obtain ⟨_, rfl, rfl⟩ := oneOperand_eq_some h
    rfl
  | ldi | add | sub | mul | div | mod | and | or | xor | shl | shr | cmp =>
    obtain ⟨_, _, rfl, rfl⟩ := twoOperands_eq_some h
    rfl

/-- Settles O1. In a dispatch table the opcode selects its own row, and the row reads the operand bytes back. -/
theorem decodeEncodeRoundTrip : Obligations.DecodeEncodeRoundTrip := fun _ hc i rest =>
  decode_of_mnemonicOf (mnemonicOf_opcodeOf hc i.mnemonic) (decodeOperands_operandBytes i rest)

/-- Settles O2. A successful decode took the opcode of the instruction's row and then its operand bytes. -/
theorem encodeDecodeRoundTrip : Obligations.EncodeDecodeRoundTrip := by
  intro c bs rest i h
  obtain ⟨op, tail, m, rfl, hrow, hoperands⟩ := decode_eq_ok h
  rw [encode, List.cons_append, operandBytes_of_decodeOperands hoperands, mnemonic_of_decodeOperands hoperands,
    opcodeOf_of_mnemonicOf hrow]

/-- Settles O4, by running the decoder on the eight words. -/
theorem wordsOfEachFamilyDecode : Obligations.WordsOfEachFamilyDecode :=
  ⟨rfl, rfl, rfl, rfl, rfl, rfl, rfl, rfl⟩

end Sys2Proof
end

section
/-! SUPPORT. The step by the bytes at the program counter, and the proofs of the obligations on it: the instruction that runs,
the byte that is no opcode, the byte outside memory (30_encoding.md R78, R80 to R82). -/

namespace Sys2Proof

theorem encode_length (c : Config) (i : Instr) : (encode c i).length = lengthOf i.mnemonic := by
  cases i <;> rfl

theorem lengthOf_bounds (m : Mnemonic) : 1 ≤ lengthOf m ∧ lengthOf m ≤ 3 := by
  cases m <;> decide

namespace Machine

theorem fetchWindow_eq_range' (m : Memory) (p : Nat) : fetchWindow m p = (List.range' p 3).filterMap (memRead m) := rfl

/-- Bytes that stand in memory from `p` on are what reading their addresses gives. -/
theorem filterMap_memRead_range' {m : Memory} {p : Nat} {bs : List Byte}
    (h : ∀ k, k < bs.length → memRead m (p + k) = bs[k]?) : (List.range' p bs.length).filterMap (memRead m) = bs := by
  induction bs generalizing p with
  | nil => rfl
  | cons b bs ih =>
    have hhead : memRead m p = some b := h 0 (Nat.zero_lt_succ _)
    have htail : ∀ k, k < bs.length → memRead m (p + 1 + k) = bs[k]? := fun k hk => by
      rw [Nat.add_right_comm, Nat.add_assoc]
      exact h (k + 1) (Nat.succ_lt_succ hk)
    rw [List.length_cons, List.range'_succ, List.filterMap_cons_some hhead, ih htail]

/-- A window of which the first bytes are known. -/
theorem fetchWindow_of_bytes {m : Memory} {p : Nat} {bs : List Byte} (hlen : bs.length ≤ 3)
    (h : ∀ k, k < bs.length → memRead m (p + k) = bs[k]?) : ∃ rest, fetchWindow m p = bs ++ rest := by
  refine ⟨(List.range' (p + bs.length) (3 - bs.length)).filterMap (memRead m), ?_⟩
  calc fetchWindow m p
      = (List.range' p (bs.length + (3 - bs.length))).filterMap (memRead m) := by
        rw [fetchWindow_eq_range', Nat.add_sub_cancel' hlen]
    _ = bs ++ _ := by rw [← List.range'_append_1, List.filterMap_append, filterMap_memRead_range' h]

/-- A running machine whose program counter stands on a byte of no row takes UnknownOpcode (30_encoding.md R78). -/
theorem step_of_unknown {s : State} {op : Byte} (hrun : s.run = .running) (hop : memRead s.mem s.pc = some op)
    (hno : ∀ m, opcodeOf s.config m ≠ op) : step s = .next (raiseFault .unknownOpcode (some op) s) := by
  have hdecode : decode s.config (fetchWindow s.mem s.pc) = .error (.unknownOpcode op) := by
    simp only [fetchWindow_of_memRead hop, decode, (mnemonicOf_eq_none_iff _ _).mpr hno]
  rw [step_of_running hrun, hdecode]
  rfl

/-- Outside memory there is no opcode to read (30_encoding.md R80). -/
theorem step_of_pc_outside {s : State} (hrun : s.run = .running) (hpc : 256 ≤ s.pc) :
    step s = .next (raiseFault .outOfBounds none s) := by
  rw [step_of_running hrun, fetchWindow_of_ge s.mem hpc]
  rfl

/-- The instruction a fetch gives lies in memory with all its bytes. -/
theorem pc_add_length_le_of_decode {c : Config} {m : Memory} {p : Nat} {i : Instr} {rest : List Byte}
    (h : decode c (fetchWindow m p) = .ok (i, rest)) : p + lengthOf i.mnemonic ≤ 256 := by
  have hbytes : lengthOf i.mnemonic + rest.length = (fetchWindow m p).length := by
    rw [← encodeDecodeRoundTrip c _ _ _ h, List.length_append, encode_length]
  have hwindow := fetchWindow_length_le m p
  have hpos := (lengthOf_bounds i.mnemonic).1
  omega

/-- Settles O10. While running, a step is the decoded instruction and nothing else. -/
theorem stepRunsDecoded : Obligations.StepRunsDecoded := by
  intro s i rest hrun hdecode
  rw [step_of_running hrun, hdecode]

/-- Settles O11. The window begins with the encoding, which decodes to its instruction. -/
theorem stepRunsTheBytesAtPc : Obligations.StepRunsTheBytesAtPc := by
  intro s i hrun hc hbytes
  have hlen : (encode s.config i).length ≤ 3 := encode_length s.config i ▸ (lengthOf_bounds i.mnemonic).2
  obtain ⟨rest, hwindow⟩ := fetchWindow_of_bytes hlen hbytes
  exact stepRunsDecoded s i rest hrun (hwindow ▸ decodeEncodeRoundTrip s.config hc i rest)

/-- Settles O12. The byte selects no row; with the default table the 22 bytes listed are those of the 22 rows. -/
theorem unknownOpcodeFaults : Obligations.UnknownOpcodeFaults := by
  refine ⟨fun s op hrun hop hno => ⟨_, step_of_unknown hrun hop hno, rfl⟩, fun s op hrun hdef hop hno =>
    ⟨_, step_of_unknown hrun hop fun m hm => hno ?_, rfl⟩⟩
  rw [← hm, hdef]
  cases m <;> decide

/-- Settles O13. Outside memory there is no opcode; inside, the row says how many operand bytes must follow. -/
theorem fetchOutOfBoundsFaults : Obligations.FetchOutOfBoundsFaults := fun _ hrun =>
  ⟨fun hpc => ⟨_, step_of_pc_outside hrun hpc, rfl⟩,
    fun _ _ hop hrow hout => ⟨_, step_of_operand_outside hrun hop hrow hout, rfl⟩⟩

end Machine

end Sys2Proof
end

section
/-! SUPPORT. What an instruction does to memory, to the program counter and to what it never writes, and the proofs of the
obligations on the invariant: reset and every step (10_state.md sections 2, 4 and 5). -/

namespace Sys2Proof.Machine

/-! ## What a completing instruction does to each field -/

/-- Only PUSH and CALL write memory, and they set the cell below the stack pointer (20_memory.md section 1). -/
theorem Completes.mem_cases {i : Instr} {s t : State} (h : Completes i s t) :
    t.mem = s.mem ∨
      PushAllowed s ∧ (∃ v, t.mem = setCell s.mem (sp s - 1).toNat v) ∧
        ((∃ r, i = .push (regByte r)) ∨ ∃ r, i = .call (regByte r)) := by
  cases i with
  | push a =>
    obtain ⟨r, rfl, hallowed, rfl⟩ := h
    exact .inr ⟨hallowed, ⟨_, rfl⟩, .inl ⟨r, rfl⟩⟩
  | call a =>
    obtain ⟨r, rfl, -, hallowed, rfl⟩ := h
    exact .inr ⟨hallowed, ⟨_, rfl⟩, .inr ⟨r, rfl⟩⟩
  | add a b | sub a b | mul a b | div a b | mod a b | and a b | or a b | xor a b | shl a b | shr a b =>
    obtain ⟨_, _, _, -, -, -, rfl⟩ := h
    exact .inl rfl
  | ldi a _ | prn a | not a | jmp a =>
    obtain ⟨_, -, rfl⟩ := h
    exact .inl rfl
  | cmp a b =>
    obtain ⟨_, _, -, -, rfl⟩ := h
    exact .inl rfl
  | pop a =>
    obtain ⟨_, -, -, rfl⟩ := h
    exact .inl rfl
  | ret =>
    obtain ⟨-, rfl⟩ := h
    exact .inl rfl
  | jeq a | jne a =>
    obtain ⟨_, -, rfl⟩ := h
    split <;> exact .inl rfl
  | hlt =>
    cases h
    exact .inl rfl

/-- The program counter advances by the row's length, or takes the value of a byte (10_state.md R27). -/
theorem Completes.pc_cases {i : Instr} {s t : State} (h : Completes i s t) :
    t.pc = s.pc + lengthOf i.mnemonic ∨ t.pc < 256 := by
  cases i with
  | add a b | sub a b | mul a b | div a b | mod a b | and a b | or a b | xor a b | shl a b | shr a b =>
    obtain ⟨_, _, _, -, -, -, rfl⟩ := h
    exact .inl rfl
  | ldi a _ | prn a | not a =>
    obtain ⟨_, -, rfl⟩ := h
    exact .inl rfl
  | cmp a b =>
    obtain ⟨_, _, -, -, rfl⟩ := h
    exact .inl rfl
  | push a | pop a =>
    obtain ⟨_, -, -, rfl⟩ := h
    exact .inl rfl
  | hlt => exact .inl (congrArg State.pc h)
  | call a =>
    obtain ⟨r, -, -, -, rfl⟩ := h
    exact .inr (readReg (decSp s) r).isLt
  | ret =>
    obtain ⟨-, rfl⟩ := h
    exact .inr (cellAt s.mem (sp s).toNat).isLt
  | jmp a =>
    obtain ⟨r, -, rfl⟩ := h
    exact .inr (readReg s r).isLt
  | jeq a =>
    obtain ⟨r, -, rfl⟩ := h
    split
    · exact .inr (readReg s r).isLt
    · exact .inl rfl
  | jne a =>
    obtain ⟨r, -, rfl⟩ := h
    split
    · exact .inl rfl
    · exact .inr (readReg s r).isLt

/-- No completing instruction writes the fault record, the image length or the configuration. -/
theorem Completes.kept {i : Instr} {s t : State} (h : Completes i s t) :
    t.fault = s.fault ∧ t.imageLen = s.imageLen ∧ t.config = s.config := by
  rcases h.effect with ⟨_, _, _, rfl⟩ | ⟨_, -, rfl⟩ | ⟨_, _, -, rfl⟩ | ⟨-, rfl⟩ <;> exact ⟨rfl, rfl, rfl⟩

/-- A completing instruction keeps the canonical form of memory. -/
theorem Completes.mem_wf {i : Instr} {s t : State} (h : Completes i s t) (hs : s.mem.wf) : t.mem.wf := by
  rcases h.mem_cases with hm | ⟨-, ⟨v, hm⟩, -⟩ <;> rw [hm]
  · exact hs
  · exact setCell_wf v hs (sp s - 1).isLt

/-- No instruction writes the image length or the configuration, faults included. -/
theorem exec_kept {i : Instr} {s t : State} (h : exec i s = .next t) :
    t.imageLen = s.imageLen ∧ t.config = s.config := by
  rcases exec_eq_next h with hc | ⟨_, rfl⟩
  · exact hc.kept.2
  · exact ⟨rfl, rfl⟩

/-! ## The invariant -/

/-- A running machine has taken no fault. -/
theorem State.Inv.fault_eq_none {s : State} (h : s.Inv) (hrun : s.run = .running) : s.fault = none := by
  have hnot : ¬ s.fault.isSome = true := fun hf => by
    cases hrun.symm.trans (h.faultIff.mp hf)
  simpa using hnot

/-- Fault entry with the byte at the program counter keeps the invariant (10_state.md R34). -/
theorem State.Inv.raiseFault {s : State} (h : s.Inv) (k : FaultKind) :
    (Machine.raiseFault k (memRead s.mem s.pc) s).Inv where
  memWf := h.memWf
  pcLe := h.pcLe
  lenLe := h.lenLe
  faultIff := iff_of_true rfl rfl
  recordOk := by
    rintro _ ⟨⟩
    exact ⟨rfl, rfl⟩
  configOk := h.configOk

/-- A fetched instruction that completes keeps the invariant: it lies in memory, so the advance ends at most at 256. -/
theorem State.Inv.completes {s t : State} {i : Instr} {rest : List Byte} (h : s.Inv) (hrun : s.run = .running)
    (hdecode : decode s.config (fetchWindow s.mem s.pc) = .ok (i, rest)) (hc : Completes i s t) : t.Inv := by
  obtain ⟨hfault, hlen, hconfig⟩ := hc.kept
  have hnone : t.fault = none := hfault.trans (h.fault_eq_none hrun)
  have hnotFaulted : t.run ≠ .faulted := by
    rcases hc.run_eq_or_hlt with hr | ⟨-, hr⟩ <;> rw [hr]
    · rw [hrun]
      decide
    · decide
  exact {
    memWf := hc.mem_wf h.memWf
    pcLe := by
      rcases hc.pc_cases with hpc | hpc
      · exact hpc ▸ pc_add_length_le_of_decode hdecode
      · exact hpc.le
    lenLe := hlen ▸ h.lenLe
    faultIff := by simp [hnone, hnotFaulted]
    recordOk := fun r hr => by cases hnone.symm.trans hr
    configOk := hconfig ▸ h.configOk }

/-- Settles O9. A step completes the fetched instruction, or enters a fault recorded with the byte at the program counter. -/
theorem stepKeepsInv : Obligations.StepKeepsInv := by
  intro s t hs h
  obtain ⟨hrun, ⟨i, rest, hdecode, hexec⟩ | ⟨k, rfl⟩⟩ := step_eq_next h
  · rcases exec_eq_next hexec with hc | ⟨k, rfl⟩
    · exact hs.completes hrun hdecode hc
    · exact memRead_of_decode hdecode ▸ hs.raiseFault k
  · exact hs.raiseFault k

/-- Settles O7. The registers are read one by one. -/
theorem resetValues : Obligations.ResetValues :=
  ⟨fun _ ha => memRead_of_lt [] ha, by decide, rfl, rfl, rfl, rfl, rfl, rfl, rfl, rfl⟩

/-- A machine built with any dispatch table meets the invariant (10_state.md R39). -/
theorem resetWith_inv {c : Config} (hc : DistinctOpcodes c) : (State.resetWith c).Inv where
  memWf := reset_mem_wf
  pcLe := Nat.zero_le _
  lenLe := Nat.zero_le _
  faultIff := by simp [State.resetWith]
  recordOk := fun _ hr => nomatch hr
  configOk := hc

/-- Settles O8. The default dispatch table is one. -/
theorem resetMeetsInv : Obligations.ResetMeetsInv := resetWith_inv defaultConfig_distinct

end Sys2Proof.Machine
end

section
/-! SUPPORT. Runs of many steps, and the proofs of the obligations on what no step writes: the bytes outside the stack region,
the image length, the configuration (42_stack.md, 10_state.md section 4). -/

namespace Sys2Proof.Machine

theorem run_succ_of_next {M : Host.Core} {s u : M.State} (h : M.step s = .next u) (n : Nat) :
    M.run (n + 1) s = M.run n u := by
  rw [Host.Core.run, h]

/-- A run of one step and more, inverted. -/
theorem run_succ_eq_next {M : Host.Core} {n : Nat} {s t : M.State} (h : M.run (n + 1) s = .next t) :
    ∃ u, M.step s = .next u ∧ M.run n u = .next t := by
  rw [Host.Core.run] at h
  cases hs : M.step s with
  | next u => exact ⟨u, rfl, by rwa [hs] at h⟩
  | fault r => simp [hs] at h
  | refused r => simp [hs] at h

/-- A relation between states that is reflexive and transitive and holds over every step holds over every run. -/
theorem run_induction {M : Host.Core} {R : M.State → M.State → Prop} (hrefl : ∀ s, R s s)
    (htrans : ∀ s t u, R s t → R t u → R s u) (hstep : ∀ s t, M.step s = .next t → R s t) {n : Nat} {s t : M.State}
    (h : M.run n s = .next t) : R s t := by
  induction n generalizing s with
  | zero => exact Host.Outcome.next.inj h ▸ hrefl s
  | succ n ih =>
    obtain ⟨u, hu, hrest⟩ := run_succ_eq_next h
    exact htrans s u t (hstep s u hu) (ih hrest)

/-- From `s` to `t` the image length and the configuration are kept, and so is every byte outside the stack region. -/
def OnlyStackChanges (s t : State) : Prop :=
  t.imageLen = s.imageLen ∧ t.config = s.config ∧
    ∀ a, a < stackFloorOf s.config s.imageLen ∨ s.config.stackTop ≤ a → memRead t.mem a = memRead s.mem a

theorem OnlyStackChanges.refl (s : State) : OnlyStackChanges s s := ⟨rfl, rfl, fun _ _ => rfl⟩

/-- The region is the same at both ends, so two stretches make one. -/
theorem OnlyStackChanges.trans (s t u : State) (hst : OnlyStackChanges s t) (htu : OnlyStackChanges t u) :
    OnlyStackChanges s u := by
  obtain ⟨hlen, hconfig, hmem⟩ := hst
  obtain ⟨hlen', hconfig', hmem'⟩ := htu
  rw [hlen, hconfig] at hmem'
  exact ⟨hlen'.trans hlen, hconfig'.trans hconfig, fun a ha => (hmem' a ha).trans (hmem a ha)⟩

/-- Where a push is allowed, it stores one below the stack pointer. -/
theorem PushAllowed.sp_sub_one {s : State} (h : PushAllowed s) : (sp s - 1).toNat = (sp s).toNat - 1 :=
  sp_sub_one_toNat (Nat.lt_of_le_of_lt (Nat.zero_le _) h.1)

/-- The stack check of a push confines its write to the region (42_stack.md R143). -/
theorem onlyStackChanges_of_completes {i : Instr} {s t : State} (h : Completes i s t) : OnlyStackChanges s t := by
  refine ⟨h.kept.2.1, h.kept.2.2, fun a ha => ?_⟩
  rcases h.mem_cases with hm | ⟨hallowed, ⟨v, hm⟩, -⟩ <;> rw [hm]
  have hslot := hallowed.sp_sub_one
  obtain ⟨hfloor, htop⟩ := hallowed
  rw [memRead_setCell s.mem a v (sp s - 1).isLt, if_neg (by omega)]

theorem onlyStackChanges_of_step {s t : State} (h : step s = .next t) : OnlyStackChanges s t := by
  obtain ⟨-, ⟨_, _, -, hexec⟩ | ⟨_, rfl⟩⟩ := step_eq_next h
  · rcases exec_eq_next hexec with hc | ⟨_, rfl⟩
    · exact onlyStackChanges_of_completes hc
    · exact OnlyStackChanges.refl s
  · exact OnlyStackChanges.refl s

/-- Settles O24. Every step keeps the bytes outside the stack region, so every run does; a floor at or above the image length
leaves the image outside. -/
theorem imageIsNeverOverwritten : Obligations.ImageIsNeverOverwritten := by
  intro n s t h
  obtain ⟨hlen, hconfig, hmem⟩ :=
    run_induction OnlyStackChanges.refl OnlyStackChanges.trans (fun _ _ => onlyStackChanges_of_step) h
  refine ⟨hlen, hconfig, hmem, fun hfloor a ha => hmem a (.inl ?_)⟩
  rcases hfloor with hdefault | hle
  · simpa [stackFloorOf, hdefault] using ha
  · exact Nat.lt_of_lt_of_le ha hle

/-- Settles O51. Load and run each have one answer with a move, which leaves the configuration in place. -/
theorem configurationNeverChanges : Obligations.ConfigurationNeverChanges := by
  refine ⟨fun i s t h => (exec_kept h).2, fun s t h => (onlyStackChanges_of_step h).2.1, fun image h g hg => ?_,
    fun h g hg => ?_⟩
  · unfold hostLoad at hg
    repeat' split at hg
    all_goals cases hg
    rfl
  · unfold hostRun at hg
    split at hg <;> cases hg
    rfl

end Sys2Proof.Machine
end

section
/-! SUPPORT. The proofs of the obligations on which registers and which bytes of memory an instruction may change, and on the
canonical form of memory (10_state.md section 1, 20_memory.md section 1). -/

namespace Sys2Proof.Machine

/-- Only the register written can read otherwise after the write. -/
theorem eq_of_readReg_writeReg_ne {s : State} {r k : RegIdx} {v : Byte} (h : readReg (writeReg s r v) k ≠ readReg s k) :
    k = r :=
  by_contra fun hk => h (readReg_writeReg_other s v hk)

/-- Settles O22. A fault changes no register, and each completing instruction changes a register by the writes of its rule. -/
theorem registersChangeOnlyAsListed : Obligations.RegistersChangeOnlyAsListed := by
  intro i s t k h hk
  rcases exec_eq_next h with hc | ⟨_, rfl⟩
  case inr => exact absurd rfl hk
  clear h
  cases i with
  | prn a | jmp a =>
    obtain ⟨_, -, rfl⟩ := hc
    exact hk rfl
  | cmp a b =>
    obtain ⟨_, _, -, -, rfl⟩ := hc
    exact hk rfl
  | jeq a | jne a =>
    obtain ⟨_, -, rfl⟩ := hc
    split at hk <;> exact hk rfl
  | hlt =>
    cases hc
    exact hk rfl
  | ldi a _ | not a =>
    obtain ⟨_, rfl, rfl⟩ := hc
    exact congrArg regByte (eq_of_readReg_writeReg_ne hk)
  | add a b | sub a b | mul a b | div a b | mod a b | and a b | or a b | xor a b | shl a b | shr a b =>
    obtain ⟨_, _, _, rfl, -, -, rfl⟩ := hc
    exact congrArg regByte (eq_of_readReg_writeReg_ne hk)
  | push a =>
    obtain ⟨_, -, -, rfl⟩ := hc
    exact eq_of_readReg_writeReg_ne hk
  | call a =>
    obtain ⟨_, -, -, -, rfl⟩ := hc
    exact eq_of_readReg_writeReg_ne hk
  | ret =>
    obtain ⟨-, rfl⟩ := hc
    exact eq_of_readReg_writeReg_ne hk
  | pop a =>
    obtain ⟨ra, rfl, -, rfl⟩ := hc
    by_cases hsp : k = spIdx
    · exact .inr hsp
    · rw [readReg_advance, readReg_incSp, if_neg hsp] at hk
      exact .inl (congrArg regByte (eq_of_readReg_writeReg_ne hk))

/-- Settles O23. A fault changes no byte, and the one cell that PUSH and CALL set is just below the stack pointer, which the
check keeps from being 0. -/
theorem memoryChangesOnlyBelowSp : Obligations.MemoryChangesOnlyBelowSp := by
  intro i s t a h ha
  rcases exec_eq_next h with hc | ⟨_, rfl⟩
  case inr => exact absurd rfl ha
  rcases hc.mem_cases with hm | ⟨hallowed, ⟨v, hm⟩, hi⟩
  · exact absurd (congrArg (memRead · a) hm) ha
  · have haddr : a = (sp s - 1).toNat := by_contra fun hne =>
      ha (by rw [hm, memRead_setCell s.mem a v (sp s - 1).isLt, if_neg hne])
    have hfloor := hallowed.1
    rw [hallowed.sp_sub_one] at haddr
    exact ⟨hi, by omega⟩

/-! ## The canonical form -/

/-- In canonical form a memory lists exactly its nonzero bytes. -/
theorem Memory.wf.mem_iff {m : Memory} (hm : m.wf) (c : Host.Cell) : c ∈ m ↔ cellAt m c.1 = c.2 ∧ c.2 ≠ 0 := by
  obtain ⟨hsorted, hcells⟩ := hm
  refine ⟨fun hc => ⟨?_, (hcells c hc).2⟩, fun hcell => ?_⟩
  · clear hcells
    induction m with
    | nil => cases hc
    | cons d m ih =>
      obtain ⟨hd, hsorted⟩ := List.pairwise_cons.mp hsorted
      rcases List.mem_cons.mp hc with rfl | hc
      · simp [cellAt]
      · simpa [cellAt, (hd c hc).ne] using ih hsorted hc
  · clear hsorted hcells
    induction m with
    | nil => exact absurd hcell.1.symm hcell.2
    | cons d m ih =>
      obtain ⟨hcell, hne⟩ := hcell
      by_cases hd : d.1 = c.1
      · rw [cellAt, if_pos hd] at hcell
        exact List.mem_cons.mpr (.inl (Prod.ext hd.symm hcell.symm))
      · rw [cellAt, if_neg hd] at hcell
        exact List.mem_cons_of_mem d (ih ⟨hcell, hne⟩)

/-- Settles O6. Two canonical memories that read alike list the same cells, in the one rising order. -/
theorem canonicalMemoryIsUnique : Obligations.CanonicalMemoryIsUnique := by
  have hsub {m n : Memory} (hm : m.wf) (hn : n.wf) (hread : ∀ a, memRead m a = memRead n a) : m ⊆ n := by
    intro c hc
    have haddr := (hm.2 c hc).1
    obtain ⟨hcell, hne⟩ := (hm.mem_iff c).mp hc
    have hsame := hread c.1
    rw [memRead_of_lt m haddr, memRead_of_lt n haddr, hcell] at hsame
    exact (hn.mem_iff c).mpr ⟨(Option.some.inj hsame).symm, hne⟩
  have hnodup {m : Memory} (hm : m.wf) : m.Nodup := hm.1.imp fun hlt heq => hlt.ne (congrArg Prod.fst heq)
  intro m n hm hn hread
  have hperm : m.Perm n := (List.perm_ext_iff_of_nodup (hnodup hm) (hnodup hn)).mpr fun c =>
    ⟨fun hc => hsub hm hn hread hc, fun hc => hsub hn hm (fun a => (hread a).symm) hc⟩
  exact hperm.eq_of_pairwise (fun _ _ _ _ hlt hgt => absurd hgt hlt.asymm) hm.1 hn.1

end Sys2Proof.Machine
end

section
/-! SUPPORT. The proofs of the obligations on the results of the ALU instructions and on the source's law of LDI and PRN
(41_alu.md sections 1 and 2, 40_load_output.md). -/

namespace Sys2Proof.Machine

/-- The register that an instruction wrote reads the value written. -/
theorem WritesReg.readReg_eq {s t : State} {r : RegIdx} {v : Byte} {n : Nat} (h : WritesReg s t r v.toNat n) :
    readReg t r = v :=
  BitVec.eq_of_toNat_eq h.1

/-- Settles O29. The bytes' sum, difference and product are those of the numbers modulo 256. -/
theorem addSubMulWrap : Obligations.AddSubMulWrap := by
  intro ra rb s
  refine ⟨?_, ?_, ?_⟩
  · rw [← BitVec.toNat_add (readReg s ra) (readReg s rb)]
    exact aluBinary_writesReg (op := .add) (m := .add) rfl rfl
  · have hsub : (readReg s ra - readReg s rb).toNat = (256 + (readReg s ra).toNat - (readReg s rb).toNat) % 256 := by
      bv_omega
    rw [← hsub]
    exact aluBinary_writesReg (op := .sub) (m := .sub) rfl rfl
  · rw [← BitVec.toNat_mul (readReg s ra) (readReg s rb)]
    exact aluBinary_writesReg (op := .mul) (m := .mul) rfl rfl

/-- Settles O30. On a nonzero divisor the ALU's quotient and remainder are those of the numbers. -/
theorem divModOfNonzero : Obligations.DivModOfNonzero := by
  intro ra rb s hne
  rw [← BitVec.toNat_udiv, ← BitVec.toNat_umod]
  exact ⟨aluBinary_writesReg (op := .div) (m := .div) rfl (if_neg hne),
    aluBinary_writesReg (op := .mod) (m := .mod) rfl (if_neg hne)⟩

/-- Where the ALU faults, the binary form takes that fault. -/
theorem aluBinary_of_error {op : AluOp} {ra rb : RegIdx} {s : State} {k : FaultKind}
    (h : alu op (readReg s ra) (readReg s rb) = .error k) (m : Mnemonic) :
    aluBinary op m (regByte ra) (regByte rb) s = .next (raiseFault k (some (opcodeOf s.config m)) s) := by
  rw [aluBinary_regs, h, writeAlu, finish_error]

/-- Settles O31. The ALU faults on a zero divisor, each operation with its own kind. -/
theorem divModByZeroFaults : Obligations.DivModByZeroFaults := fun _ _ _ hzero =>
  ⟨⟨_, aluBinary_of_error ((alu_error_iff .div _ _ _).mpr ⟨hzero, .inl ⟨rfl, rfl⟩⟩) .div, rfl⟩,
    ⟨_, aluBinary_of_error ((alu_error_iff .mod _ _ _).mpr ⟨hzero, .inr ⟨rfl, rfl⟩⟩) .mod, rfl⟩⟩

/-- A binary operation that completes on every operand, stated by the value left in regA. -/
theorem aluBinary_readReg {op : AluOp} {m : Mnemonic} (hm : lengthOf m = 3) {ra rb : RegIdx} {s : State} {v : Byte}
    (h : alu op (readReg s ra) (readReg s rb) = .ok v) :
    ∃ t, aluBinary op m (regByte ra) (regByte rb) s = .next t ∧ WritesReg s t ra v.toNat 3 ∧ readReg t ra = v := by
  obtain ⟨t, ht, hw⟩ := aluBinary_writesReg hm h
  exact ⟨t, ht, hw, hw.readReg_eq⟩

/-- NOT on a register (41_alu.md R118). -/
theorem exec_not_regByte (ra : RegIdx) (s : State) :
    exec (.not (regByte ra)) s = .next (advance .not (writeReg s ra (~~~readReg s ra))) := by
  simp [exec, execNot, alu, writeAlu]

/-- Settles O32. Each result is the bytes' own operation, read bit by bit. -/
theorem bitwiseOperations : Obligations.BitwiseOperations := by
  intro ra rb s
  refine ⟨?_, ?_, ?_, ?_⟩
  · obtain ⟨t, ht, hw, hr⟩ := aluBinary_readReg (op := .and) (m := .and) (ra := ra) (rb := rb) (s := s) rfl rfl
    exact ⟨t, ht, hr ▸ hw, fun i _ => by rw [hr, BitVec.getLsbD_and]⟩
  · obtain ⟨t, ht, hw, hr⟩ := aluBinary_readReg (op := .or) (m := .or) (ra := ra) (rb := rb) (s := s) rfl rfl
    exact ⟨t, ht, hr ▸ hw, fun i _ => by rw [hr, BitVec.getLsbD_or]⟩
  · obtain ⟨t, ht, hw, hr⟩ := aluBinary_readReg (op := .xor) (m := .xor) (ra := ra) (rb := rb) (s := s) rfl rfl
    exact ⟨t, ht, hr ▸ hw, fun i _ => by rw [hr, BitVec.getLsbD_xor]⟩
  · have hnot : (~~~readReg s ra).toNat = 255 - (readReg s ra).toNat := BitVec.toNat_not
    exact ⟨_, exec_not_regByte ra s, hnot ▸ writesReg_advance_writeReg .not s ra _⟩

/-- Settles O33. The amount is not masked, so 8 or more shifts every bit out. -/
theorem shiftsByTheWholeAmount : Obligations.ShiftsByTheWholeAmount := by
  intro ra rb s
  constructor
  · have hshl : (readReg s ra <<< (readReg s rb).toNat).toNat = (readReg s ra).toNat * 2 ^ (readReg s rb).toNat % 256 := by
      rw [BitVec.toNat_shiftLeft, Nat.shiftLeft_eq]
    obtain ⟨t, ht, hw, hr⟩ := aluBinary_readReg (op := .shl) (m := .shl) (ra := ra) (rb := rb) (s := s) rfl rfl
    exact ⟨t, ht, hshl ▸ hw, fun h => hr.trans (BitVec.shiftLeft_eq_zero h)⟩
  · have hshr : (readReg s ra >>> (readReg s rb).toNat).toNat = (readReg s ra).toNat / 2 ^ (readReg s rb).toNat := by
      rw [BitVec.toNat_ushiftRight, Nat.shiftRight_eq_div_pow]
    obtain ⟨t, ht, hw, hr⟩ := aluBinary_readReg (op := .shr) (m := .shr) (ra := ra) (rb := rb) (s := s) rfl rfl
    exact ⟨t, ht, hshr ▸ hw, fun h => hr.trans (BitVec.ushiftRight_eq_zero h)⟩

/-- Settles O27. PRN emits the register that LDI has just written. -/
theorem ldiThenPrnEmitsTheLiteral : Obligations.LdiThenPrnEmitsTheLiteral := by
  intro ra v s
  refine ⟨_, _, exec_ldi_regByte ra v s, exec_prn_regByte ra _, ?_, rfl⟩
  simp

end Sys2Proof.Machine
end

section
/-! SUPPORT. The proofs of the obligations on CMP, on the jumps and on the trace snapshot (44_compare.md, 45_jump.md,
60_exceptions.md section 6). -/

namespace Sys2Proof.Machine

/-- Of the three flags of a comparison exactly one is set (44_compare.md R160). -/
theorem compareFlags_count (u v : Byte) :
    [(compareFlags u v).eq, (compareFlags u v).lt, (compareFlags u v).gt].count true = 1 := by
  rcases Nat.lt_trichotomy u.toNat v.toNat with h | h | h
  · simp [compareFlags, h, h.ne, h.asymm]
  · simp [compareFlags, h]
  · simp [compareFlags, h, h.ne', h.asymm]

/-- Settles O34. The flags are `compareFlags` of the two registers, and CMP writes nothing else. -/
theorem cmpSetsAllThreeFlags : Obligations.CmpSetsAllThreeFlags := fun ra rb s =>
  ⟨_, exec_cmp_regByte ra rb s, decide_eq_true_iff, decide_eq_true_iff, decide_eq_true_iff, compareFlags_count _ _,
    rfl, rfl, rfl, rfl, rfl, rfl, fun _ => rfl, fun _ => rfl⟩

theorem jumpsTo_setPc (s : State) (p : Nat) : JumpsTo s (setPc s p) p :=
  ⟨rfl, ⟨rfl, rfl, rfl, rfl, rfl, rfl⟩, fun _ => rfl, fun _ => rfl⟩

/-- A jump on a row of two bytes: its target and its frame. -/
theorem jumpIf_jumpsTo (taken : Bool) {m : Mnemonic} (hm : lengthOf m = 2) (ra : RegIdx) (s : State) :
    ∃ t, jumpIf taken m (regByte ra) s = .next t ∧
      JumpsTo s t (if taken = true then (readReg s ra).toNat else s.pc + 2) := by
  refine ⟨_, jumpIf_regByte taken m ra s, ?_⟩
  cases taken with
  | true => exact jumpsTo_setPc s _
  | false => exact hm ▸ jumpsTo_setPc s (s.pc + lengthOf m)

/-- Settles O35. Each of the three is a jump of its condition; JNE's is the negation of EQ. -/
theorem jumpsGoThroughTheirRegister : Obligations.JumpsGoThroughTheirRegister := by
  intro ra s
  refine ⟨jumpIf_jumpsTo true (m := .jmp) rfl ra s, jumpIf_jumpsTo s.flags.eq (m := .jeq) rfl ra s, ?_⟩
  obtain ⟨t, ht, hjump⟩ := jumpIf_jumpsTo (!s.flags.eq) (m := .jne) rfl ra s
  refine ⟨t, ht, ?_⟩
  cases heq : s.flags.eq <;> simpa [heq] using hjump

/-- Settles O49. The snapshot's bytes are reads, which fail exactly outside memory. -/
theorem snapshotShowsTheState : Obligations.SnapshotShowsTheState := fun _ =>
  ⟨rfl, fun _ => rfl, rfl, rfl, memRead_eq_none_iff _ _, memRead_eq_none_iff _ _, memRead_eq_none_iff _ _⟩

end Sys2Proof.Machine
end

section
/-! SUPPORT. PUSH, POP, CALL and RET on registers, once per stack check, and the proofs of the obligations on the stack and
on the subroutine (42_stack.md, 43_subroutine.md). -/

namespace Sys2Proof.Machine

/-! ## The four instructions where their checks pass -/

theorem exec_push_of_allowed {s : State} (h : PushAllowed s) (ra : RegIdx) :
    exec (.push (regByte ra)) s =
      .next (advance .push (setMem (decSp s) (setCell s.mem (sp s - 1).toNat (readReg (decSp s) ra)))) := by
  simp [exec, execPush, beginPush_of_ok h]

theorem exec_pop_of_allowed {s : State} (h : PopAllowed s) (ra : RegIdx) :
    exec (.pop (regByte ra)) s = .next (advance .pop (incSp (writeReg s ra (cellAt s.mem (sp s).toNat)))) := by
  simp [exec, execPop, popByte_of_ok h]

theorem returnByte_of_lt {ret : Nat} (h : ret < 256) : returnByte ret = .ok (BitVec.ofNat 8 ret) := if_pos h

theorem returnByte_of_ge {ret : Nat} (h : 256 ≤ ret) : returnByte ret = .error .outOfBounds := if_neg h.not_gt

theorem exec_call_of_allowed {s : State} (hret : s.pc + 2 < 256) (h : PushAllowed s) (ra : RegIdx) :
    exec (.call (regByte ra)) s =
      .next (setPc (setMem (decSp s) (setCell s.mem (sp s - 1).toNat (BitVec.ofNat 8 (s.pc + 2))))
        (readReg (decSp s) ra).toNat) := by
  have hbyte : returnByte (s.pc + lengthOf .call) = .ok (BitVec.ofNat 8 (s.pc + 2)) := returnByte_of_lt hret
  simp [exec, execCall, hbyte, beginPush_of_ok h]

theorem exec_ret_of_allowed {s : State} (h : PopAllowed s) :
    exec .ret s = .next (incSp (setPc s (cellAt s.mem (sp s).toNat).toNat)) := by
  simp [exec, execRet, popByte_of_ok h]

/-! ## The four instructions where a check fails -/

theorem exec_push_of_error {s : State} {k : FaultKind} (h : checkPush s.config s.imageLen (sp s) = .error k)
    (ra : RegIdx) : exec (.push (regByte ra)) s = .next (raiseFault k (some (opcodeOf s.config .push)) s) := by
  simp [exec, execPush, beginPush_error h]

theorem exec_pop_of_error {s : State} {k : FaultKind} (h : checkPop s.config s.imageLen (sp s) = .error k)
    (ra : RegIdx) : exec (.pop (regByte ra)) s = .next (raiseFault k (some (opcodeOf s.config .pop)) s) := by
  simp [exec, execPop, popByte_error h]

theorem exec_call_of_error {s : State} {k : FaultKind} (hret : s.pc + 2 < 256)
    (h : checkPush s.config s.imageLen (sp s) = .error k) (ra : RegIdx) :
    exec (.call (regByte ra)) s = .next (raiseFault k (some (opcodeOf s.config .call)) s) := by
  have hbyte : returnByte (s.pc + lengthOf .call) = .ok (BitVec.ofNat 8 (s.pc + 2)) := returnByte_of_lt hret
  simp [exec, execCall, hbyte, beginPush_error h]

theorem exec_ret_of_error {s : State} {k : FaultKind} (h : checkPop s.config s.imageLen (sp s) = .error k) :
    exec .ret s = .next (raiseFault k (some (opcodeOf s.config .ret)) s) := by
  simp [exec, execRet, popByte_error h]

/-- The return address is checked before the stack pointer (60_exceptions.md R203). -/
theorem exec_call_of_return_outside {s : State} (hret : 256 ≤ s.pc + 2) (ra : RegIdx) :
    exec (.call (regByte ra)) s = .next (raiseFault .outOfBounds (some (opcodeOf s.config .call)) s) := by
  have hbyte : returnByte (s.pc + lengthOf .call) = .error .outOfBounds := returnByte_of_ge hret
  simp [exec, execCall, hbyte]

/-! ## The obligations: effects -/

/-- The decrement and the store of a push, whatever is done to the program counter after them. -/
theorem pushes_setMem_decSp {s : State} (h : PushAllowed s) (v : Byte) (p : Nat) :
    Pushes s (setPc (setMem (decSp s) (setCell s.mem (sp s - 1).toNat v)) p) v := by
  have hslot := h.sp_sub_one
  refine ⟨?_, fun k hk => ?_, ?_, fun a ha => ?_, rfl, rfl, rfl, rfl, rfl, rfl⟩
  · rw [readReg_setPc, readReg_setMem, readReg_decSp, if_pos rfl, hslot]
  · rw [readReg_setPc, readReg_setMem, readReg_decSp, if_neg hk]
  · rw [setPc_mem, setMem_mem, memRead_setCell s.mem _ v (sp s - 1).isLt, if_pos hslot.symm]
  · rw [setPc_mem, setMem_mem, memRead_setCell s.mem _ v (sp s - 1).isLt, if_neg (hslot ▸ ha)]

/-- Settles O37. PUSH reads its register after the decrement. -/
theorem pushStoresBelowSp : Obligations.PushStoresBelowSp := fun ra s h =>
  ⟨_, exec_push_of_allowed h ra, rfl, readReg_decSp s ra ▸ pushes_setMem_decSp h _ _⟩

/-- Settles O38. POP increments after the load, so a load into R7 is what it increments. -/
theorem popLoadsFromSp : Obligations.PopLoadsFromSp := by
  intro ra s h
  refine ⟨cellAt s.mem (sp s).toNat, _, memRead_byte s.mem (sp s), exec_pop_of_allowed h ra, rfl,
    ⟨rfl, rfl, rfl, rfl, rfl, rfl⟩, fun _ => rfl, fun k hk hsp => ?_, fun hra => ⟨?_, ?_⟩, ?_⟩
  · rw [readReg_advance, readReg_incSp, if_neg hsp, readReg_writeReg_other s _ hk]
  · rw [readReg_advance, readReg_incSp, if_neg hra, readReg_writeReg_same]
  · rw [readReg_advance, readReg_incSp, if_pos rfl, sp, readReg_writeReg_other s _ hra.symm, BitVec.toNat_add]
    rfl
  · rintro rfl
    rw [readReg_advance, readReg_incSp, if_pos rfl, sp, readReg_writeReg_same, BitVec.toNat_add]
    rfl

/-- Settles O39. CALL reads its target after the decrement. -/
theorem callPushesReturnAddress : Obligations.CallPushesReturnAddress := by
  intro ra s hret h
  refine ⟨_, exec_call_of_allowed hret h ra, pushes_setMem_decSp h _ _, ?_⟩
  rw [setPc_pc, readReg_decSp]
  split
  · exact h.sp_sub_one
  · rfl

/-- Settles O40. The load is from the old stack pointer, and the program counter takes it before the increment. -/
theorem retPopsIntoPc : Obligations.RetPopsIntoPc := by
  intro s h
  refine ⟨cellAt s.mem (sp s).toNat, _, memRead_byte s.mem (sp s), exec_ret_of_allowed h, rfl, ?_, fun k hk => ?_,
    ⟨rfl, rfl, rfl, rfl, rfl, rfl⟩, fun _ => rfl⟩
  · rw [readReg_incSp, if_pos rfl, sp_setPc, BitVec.toNat_add]
    rfl
  · rw [readReg_incSp, if_neg hk, readReg_setPc]

/-! ## The obligations: faults -/

/-- Settles O41. The three cases are those in which the push check fails, with its kind. -/
theorem pushAndCallStackFaults : Obligations.PushAndCallStackFaults := by
  intro ra s k h
  have hcheck := (checkPush_error_iff s.config s.imageLen (sp s) k).mpr h
  exact ⟨⟨_, exec_push_of_error hcheck ra, rfl⟩, fun hret => ⟨_, exec_call_of_error hret hcheck ra, rfl⟩⟩

/-- Settles O42. The two cases are those in which the pop check fails, with its kind. -/
theorem popAndRetStackFaults : Obligations.PopAndRetStackFaults := by
  intro ra s k h
  have hcheck := (checkPop_error_iff s.config s.imageLen (sp s) k).mpr h
  exact ⟨⟨_, exec_pop_of_error hcheck ra, rfl⟩, ⟨_, exec_ret_of_error hcheck, rfl⟩⟩

/-- Settles O43. The return-address check is the first after the register index. -/
theorem callReturnAddressFault : Obligations.CallReturnAddressFault := fun ra _ hret =>
  ⟨_, exec_call_of_return_outside hret ra, rfl⟩

/-- The push check passes, or fails with a kind that is not OutOfBounds. -/
theorem checkPush_cases (s : State) :
    PushAllowed s ∨ ∃ k, k ≠ .outOfBounds ∧ checkPush s.config s.imageLen (sp s) = .error k := by
  cases h : checkPush s.config s.imageLen (sp s) with
  | ok _ => exact .inl ((checkPush_ok_iff _ _ _).mp h)
  | error k =>
    refine .inr ⟨k, ?_, rfl⟩
    rcases (checkPush_error_iff _ _ _ k).mp h with ⟨-, rfl⟩ | ⟨-, -, rfl⟩ | ⟨-, -, rfl⟩ <;> decide

/-- The pop check passes, or fails with a kind that is not OutOfBounds. -/
theorem checkPop_cases (s : State) :
    PopAllowed s ∨ ∃ k, k ≠ .outOfBounds ∧ checkPop s.config s.imageLen (sp s) = .error k := by
  cases h : checkPop s.config s.imageLen (sp s) with
  | ok _ => exact .inl ((checkPop_ok_iff _ _ _).mp h)
  | error k =>
    refine .inr ⟨k, ?_, rfl⟩
    rcases (checkPop_error_iff _ _ _ k).mp h with ⟨-, rfl⟩ | ⟨-, -, rfl⟩ <;> decide

/-- A running machine that keeps its run state has taken no fault. -/
theorem not_faults_of_run_eq {s t : State} (h : t.run = s.run) {k : FaultKind} {op : Option Byte}
    (hrun : s.run = .running) : ¬ Faults s t k op := by
  rintro rfl
  cases h.trans hrun

/-- A fault has one kind. -/
theorem not_faults_raiseFault {s : State} {j k : FaultKind} (h : j ≠ k) (op op' : Option Byte) :
    ¬ Faults s (raiseFault j op s) k op' := fun hf =>
  h (congrArg FaultRecord.kind (Option.some.inj (congrArg State.fault hf)))

/-- Settles O44. The only other faults are those of the stack checks, and neither check raises OutOfBounds. -/
theorem stackAccessIsNeverOutOfBounds : Obligations.StackAccessIsNeverOutOfBounds := by
  intro ra s op
  refine ⟨fun i hi => ?_, fun hret => ?_⟩
  · simp only [List.mem_cons, List.not_mem_nil, or_false] at hi
    rcases hi with rfl | rfl | rfl
    · rcases checkPush_cases s with h | ⟨k, hk, h⟩
      · exact ⟨_, exec_push_of_allowed h ra, not_faults_of_run_eq (by rfl)⟩
      · exact ⟨_, exec_push_of_error h ra, fun _ => not_faults_raiseFault hk _ _⟩
    · rcases checkPop_cases s with h | ⟨k, hk, h⟩
      · exact ⟨_, exec_pop_of_allowed h ra, not_faults_of_run_eq (by rfl)⟩
      · exact ⟨_, exec_pop_of_error h ra, fun _ => not_faults_raiseFault hk _ _⟩
    · rcases checkPop_cases s with h | ⟨k, hk, h⟩
      · exact ⟨_, exec_ret_of_allowed h, not_faults_of_run_eq (by rfl)⟩
      · exact ⟨_, exec_ret_of_error h, fun _ => not_faults_raiseFault hk _ _⟩
  · rcases checkPush_cases s with h | ⟨k, hk, h⟩
    · exact ⟨_, exec_call_of_allowed hret h ra, not_faults_of_run_eq (by rfl)⟩
    · exact ⟨_, exec_call_of_error hret h ra, fun _ => not_faults_raiseFault hk _ _⟩

/-! ## The obligations: the source's laws -/

/-- After an allowed push, a pop is allowed in any state with its stack pointer, image length and configuration. -/
theorem Pushes.popAllowed {s t u : State} {v : Byte} (ht : Pushes s t v) (h : PushAllowed s) (hsp : sp u = sp t)
    (hlen : u.imageLen = t.imageLen) (hconfig : u.config = t.config) : PopAllowed u := by
  obtain ⟨hslot, -, -, -, -, -, -, hlen', -, hconfig'⟩ := ht
  obtain ⟨hfloor, htop⟩ := h
  have hsp' : (sp u).toNat = (sp s).toNat - 1 := hsp ▸ hslot
  rw [PopAllowed, hlen, hconfig, hlen', hconfig', hsp']
  omega

/-- Up by one from the slot of an allowed push is where the push began. -/
theorem Pushes.sp_restored {s t : State} {v w : Byte} (ht : Pushes s t v) (h : PushAllowed s)
    (hw : w.toNat = ((sp t).toNat + 1) % 256) : w = sp s := by
  have hslot : (sp t).toNat = (sp s).toNat - 1 := ht.1
  have hfloor := h.1
  bv_omega

/-- Settles O45. What PUSH stored below the old stack pointer is the byte POP loads. -/
theorem pushThenPopRoundTrip : Obligations.PushThenPopRoundTrip := by
  intro ra rb s _ hra hrb h
  obtain ⟨t, ht, -, hpush⟩ := pushStoresBelowSp ra s h
  obtain ⟨v, u, hread, hu, -, -, -, -, hother, -⟩ := popLoadsFromSp rb t (hpush.popAllowed h rfl rfl rfl)
  obtain ⟨hvalue, hsp⟩ := hother hrb
  have hslot : (sp t).toNat = (sp s).toNat - 1 := hpush.1
  have hstored := hpush.2.2.1
  rw [if_neg hra, ← hslot, hread] at hstored
  exact ⟨t, u, ht, hu, hvalue.trans (Option.some.inj hstored), hpush.sp_restored h hsp⟩

/-- Settles O46. RET loads the return address that CALL stored, and it fits a byte. -/
theorem callThenRetReturns : Obligations.CallThenRetReturns := by
  intro ra s hret h
  obtain ⟨t, ht, hpush, -⟩ := callPushesReturnAddress ra s hret h
  refine ⟨t, ht, fun u hsp hbyte hlen hconfig => ?_⟩
  obtain ⟨v, w, hread, hw, hpc, hsp', -⟩ := retPopsIntoPc u (hpush.popAllowed h hsp hlen hconfig)
  have hslot : (sp t).toNat = (sp s).toNat - 1 := hpush.1
  have hstored := hpush.2.2.1
  rw [hsp] at hread hsp'
  rw [← hslot, ← hbyte, hread] at hstored
  refine ⟨w, hw, ?_, hpush.sp_restored h hsp'⟩
  rw [hpc, Option.some.inj hstored, BitVec.toNat_ofNat, Nat.mod_eq_of_lt hret]

end Sys2Proof.Machine
end

section
/-! SUPPORT. The proofs of the obligations on the host's load, on runs under fuel and on the parameters
(70_reset_and_hazards.md sections 2 and 5, 00_scope.md section 4). -/

namespace Sys2Proof

/-- The 18 configurable opcode bytes taken from any table of all 22 rows. -/
def opcodeBytesFrom (byte : Mnemonic → Byte) : OpcodeBytes where
  sub := byte .sub
  mul := byte .mul
  div := byte .div
  mod := byte .mod
  and := byte .and
  or := byte .or
  xor := byte .xor
  not := byte .not
  shl := byte .shl
  shr := byte .shr
  push := byte .push
  pop := byte .pop
  call := byte .call
  ret := byte .ret
  cmp := byte .cmp
  jmp := byte .jmp
  jeq := byte .jeq
  jne := byte .jne

theorem opcodeOf_opcodeBytesFrom {c : Config} {byte : Mnemonic → Byte} (hc : c.opcodeByte = opcodeBytesFrom byte)
    {m : Mnemonic} (hm : m ∉ [Mnemonic.ldi, .prn, .add, .hlt]) : opcodeOf c m = byte m := by
  cases m with
  | ldi | prn | add | hlt => exact absurd (by decide) hm
  | sub | mul | div | mod | and | or | xor | not | shl | shr | push | pop | call | ret | cmp | jmp | jeq | jne =>
    simp only [opcodeOf, hc, opcodeBytesFrom]

/-- Settles O50. The floor rule is a table of the function, and the 18 bytes are read from the byte function. -/
theorem configurationCoversTheParameters : Obligations.ConfigurationCoversTheParameters :=
  ⟨fun top floor byte => ⟨⟨top, .table (Vector.ofFn fun i => floor i.val), opcodeBytesFrom byte⟩, rfl,
      fun _ hL => stackFloorOf_table ⟨top, .imageLength, opcodeBytesFrom byte⟩ floor hL,
      fun _ hm => opcodeOf_opcodeBytesFrom rfl hm⟩,
    rfl, fun _ => rfl, rfl⟩

namespace Machine

/-! ## Load -/

/-- The one load of a construction. -/
theorem hostLoad_constructWith (c : Config) {image : List Byte} (h : image.length ≤ 256) :
    hostLoad image (constructWith c) =
      .next ⟨{ State.resetWith c with mem := writeBytes [] 0 image, imageLen := image.length }, true⟩ := by
  have hfits : ¬ memSize < image.length := h.not_gt
  simp [hostLoad, constructWith, State.resetWith, hfits]

/-- Bytes copied from address 0 into empty memory stand there, and the rest reads 0. -/
theorem memRead_writeBytes_nil (image : List Byte) {k : Nat} (hk : k < 256) :
    memRead (writeBytes [] 0 image) k = some (image.getD k 0) := by
  rw [memRead_writeBytes]
  rcases Nat.lt_or_ge k image.length with h | h
  · simp [h, hk]
  · simp [h.not_gt, memRead_of_lt [] hk, cellAt]

/-- A fresh machine that meets the invariant meets it after its load. -/
theorem State.Inv.load {s : State} (h : s.Inv) (hfault : s.fault = none) {image : List Byte} (hlen : image.length ≤ 256) :
    State.Inv { s with mem := writeBytes s.mem 0 image, imageLen := image.length } where
  memWf := writeBytes_wf image 0 h.memWf
  pcLe := h.pcLe
  lenLe := hlen
  faultIff := h.faultIff
  recordOk := fun _ hr => nomatch hfault.symm.trans hr
  configOk := h.configOk

/-- Settles O47. The load writes the image into the empty memory of a reset machine, which meets the invariant. -/
theorem loadPlacesTheImage : Obligations.LoadPlacesTheImage := by
  refine fun c => ⟨fun image hlen => ⟨_, hostLoad_constructWith c hlen, fun k hk => memRead_writeBytes_nil image hk, rfl,
    fun hc => (resetWith_inv hc).load rfl hlen, fun _ => rfl⟩, fun image hlen => ?_⟩
  have htoo : memSize < image.length := hlen
  simp [hostLoad, constructWith, State.resetWith, htoo]

/-! ## Runs under fuel -/

/-- An ended state is reported whatever fuel is left. -/
theorem runFuel_of_ended {s : State} (h : s.Ended) (n : Nat) : runFuel n s = some s := by
  cases n <;> exact if_pos h

/-- A report under no fuel is of an ended state. -/
theorem runFuel_zero_eq_some {s t : State} (h : runFuel 0 s = some t) : s.Ended ∧ s = t := by
  rw [runFuel] at h
  split at h
  · exact ⟨‹_›, Option.some.inj h⟩
  · cases h

/-- A machine that has not ended spends one unit of fuel on a step. -/
theorem runFuel_succ_of_next {s u : State} (h : ¬ s.Ended) (hstep : step s = .next u) (n : Nat) :
    runFuel (n + 1) s = runFuel n u := by
  have hrun : ¬ (s.run = .halted ∨ s.run = .faulted) := h
  rw [runFuel, if_neg hrun, hstep]

/-- A report under fuel, inverted: the state had ended, or it made a step and the rest of the fuel gave the report. -/
theorem runFuel_succ_eq_some {n : Nat} {s t : State} (h : runFuel (n + 1) s = some t) :
    (s.Ended ∧ s = t) ∨ (¬ s.Ended ∧ ∃ u, step s = .next u ∧ runFuel n u = some t) := by
  by_cases hs : s.Ended
  · exact .inl ⟨hs, Option.some.inj ((runFuel_of_ended hs (n + 1)).symm.trans h)⟩
  · have hrun : ¬ (s.run = .halted ∨ s.run = .faulted) := hs
    rw [runFuel, if_neg hrun] at h
    cases hstep : step s with
    | next u => exact .inr ⟨hs, u, rfl, by rwa [hstep] at h⟩
    | fault r => simp [hstep] at h
    | refused r => simp [hstep] at h

/-- Settles O48, by induction on the fuel. -/
theorem runEndsOnlyWhenEnded : Obligations.RunEndsOnlyWhenEnded := by
  intro n
  induction n with
  | zero =>
    intro s t h
    obtain ⟨hs, rfl⟩ := runFuel_zero_eq_some h
    exact ⟨hs, fun k => runFuel_of_ended hs _, 0, le_rfl, rfl⟩
  | succ n ih =>
    intro s t h
    rcases runFuel_succ_eq_some h with ⟨hs, rfl⟩ | ⟨hs, u, hstep, hrest⟩
    · exact ⟨hs, fun k => runFuel_of_ended hs _, 0, Nat.zero_le _, rfl⟩
    · obtain ⟨ht, hmore, k, hk, hrun⟩ := ih u t hrest
      refine ⟨ht, fun j => ?_, k + 1, Nat.succ_le_succ hk, (run_succ_of_next hstep k).trans hrun⟩
      rw [Nat.add_right_comm, runFuel_succ_of_next hs hstep, hmore]

end Machine

end Sys2Proof
end
